-- ==== Sys2Proof/Word.lean ====
section
/-! DEFINITION. The words of the core: bytes, 16-bit words, 12-bit addresses and 4-bit fields
(00_scope.md R8, R10, R11: bit 0 is the least significant bit, every value is unsigned). -/

namespace Sys2Proof

/-- A byte of memory, a general register, a timer (00_scope.md R8). -/
abbrev Byte := BitVec 8

/-- A 16-bit word: PC, I, IR, a stack entry, an instruction (00_scope.md R8). -/
abbrev Word := BitVec 16

/-- The 12-bit address field `nnn` (30_encoding.md R91). -/
abbrev Addr12 := BitVec 12

/-- A 4-bit field of an instruction word: `n`, or a key index 0..15 (30_encoding.md R91, 40_engine.md R133). -/
abbrev Nib := BitVec 4

/-- The 4-bit index of a general register V0..VF (10_state.md R30). -/
abbrev Reg := Nib

end Sys2Proof
end

