-- ==== Sys2Proof/Config.lean ====
section
/-! DEFINITION. The implementation parameters of 00_scope.md R8 as one structure, and the one free value
of the core, the byte on the `rand` input (42_alu.md R228). The values THIS hardware takes are
`Sys2Proof.Machine.hw` (Machine/Hardware.lean). -/

namespace Sys2Proof

/-- UNSUPPORTED_POLICY: what an unsupported word does (00_scope.md R8, 40_engine.md R127). -/
inductive UnsupportedPolicy where
  | nop
  | fault
  deriving DecidableEq, Repr

/-- ODD_PC_FETCH: what a fetch at an odd PC does (00_scope.md R8, 40_engine.md R122). -/
inductive OddPcFetch where
  | fault
  | allow
  deriving DecidableEq, Repr

/-- SHIFT_SOURCE: which register 8XY6 and 8XYE shift (00_scope.md R8, 42_alu.md R202). -/
inductive ShiftSource where
  | vx
  | vy
  deriving DecidableEq, Repr

/-- The parameters of 00_scope.md R8, one field each; the derived ones are the functions below it. -/
structure Config where
  /-- MEM_SIZE, bytes in the address space. -/
  memSize : Nat
  /-- NUM_V, general registers. -/
  numV : Nat
  /-- FLAG_REG, the index of VF. -/
  flagReg : Reg
  /-- PC_WIDTH. -/
  pcWidth : Nat
  /-- I_WIDTH. -/
  iWidth : Nat
  /-- IR_WIDTH. -/
  irWidth : Nat
  /-- TIMER_WIDTH. -/
  timerWidth : Nat
  /-- STACK_DEPTH, call stack entries. -/
  stackDepth : Nat
  /-- FB_W, framebuffer width. -/
  fbW : Nat
  /-- FB_H, framebuffer height. -/
  fbH : Nat
  /-- FONT_BASE, address of glyph 0. -/
  fontBase : Nat
  /-- GLYPH_BYTES, bytes per glyph. -/
  glyphBytes : Nat
  /-- PROG_BASE, load address of the image and reset PC. -/
  progBase : Nat
  /-- NUM_KEYS. -/
  numKeys : Nat
  /-- TICK_HZ. -/
  tickHz : Nat
  /-- UNSUPPORTED_POLICY. -/
  unsupportedPolicy : UnsupportedPolicy
  /-- ODD_PC_FETCH. -/
  oddPcFetch : OddPcFetch
  /-- SHIFT_SOURCE. -/
  shiftSource : ShiftSource
  /-- STRICT_5_9, whether 5XYN and 9XYN with n ≠ 0 are unsupported. -/
  strict59 : Bool
  /-- FONT, the glyph bytes from FONT_BASE on. -/
  font : List Byte
  deriving DecidableEq, Repr

/-- ADDR_MAX, the highest addressable byte (00_scope.md R8). -/
def Config.addrMax (c : Config) : Nat := c.memSize - 1

/-- FONT_END, the last byte of the font area (00_scope.md R8). -/
def Config.fontEnd (c : Config) : Nat := c.fontBase + 16 * c.glyphBytes - 1

/-- PROG_MAX, the maximum image size (00_scope.md R8). -/
def Config.progMax (c : Config) : Nat := c.memSize - c.progBase

/-- FREE VALUE: the byte on the `rand` input at the n-th draw, under no law (42_alu.md R228, 93 K3). It has
no body, so nothing can be proved of it; a statement about an RND holds for every byte (log 2). -/
opaque Config.randByte : Nat → Byte

end Sys2Proof
end

