-- ==== Sys2Proof/Machine/Hardware.lean ====
section
/-! DEFINITION. The parameter values this hardware takes (00_scope.md R8; the font of 10_state.md R52). -/

namespace Sys2Proof.Machine

/-- FONT: the 80 glyph bytes of 10_state.md R52, glyph d at d × 5 (from general knowledge, D23; log 4). -/
def fontTable : List Byte :=
  [0xF0, 0x90, 0x90, 0x90, 0xF0,   -- 0
   0x20, 0x60, 0x20, 0x20, 0x70,   -- 1
   0xF0, 0x10, 0xF0, 0x80, 0xF0,   -- 2
   0xF0, 0x10, 0xF0, 0x10, 0xF0,   -- 3
   0x90, 0x90, 0xF0, 0x10, 0x10,   -- 4
   0xF0, 0x80, 0xF0, 0x10, 0xF0,   -- 5
   0xF0, 0x80, 0xF0, 0x90, 0xF0,   -- 6
   0xF0, 0x10, 0x20, 0x40, 0x40]   -- 7
  ++
  [0xF0, 0x90, 0xF0, 0x90, 0xF0,   -- 8
   0xF0, 0x90, 0xF0, 0x10, 0xF0,   -- 9
   0xF0, 0x90, 0xF0, 0x90, 0x90,   -- A
   0xE0, 0x90, 0xE0, 0x90, 0xE0,   -- B
   0xF0, 0x80, 0x80, 0x80, 0xF0,   -- C
   0xE0, 0x90, 0x90, 0x90, 0xE0,   -- D
   0xF0, 0x80, 0xF0, 0x80, 0xF0,   -- E
   0xF0, 0x80, 0xF0, 0x80, 0x80]   -- F

/-- This hardware (00_scope.md R8, column "value"). -/
def hw : Config where
  memSize := 4096
  numV := 16
  flagReg := 15
  pcWidth := 16
  iWidth := 16
  irWidth := 16
  timerWidth := 8
  stackDepth := 12
  fbW := 64
  fbH := 32
  fontBase := 0
  glyphBytes := 5
  progBase := 0x200
  numKeys := 16
  tickHz := 60
  unsupportedPolicy := .nop
  oddPcFetch := .fault
  shiftSource := .vx
  strict59 := false
  font := fontTable

end Sys2Proof.Machine
end

