-- ==== Sys2Proof/WellFormed.lean ====
section
/-! DEFINITION. Well-formed instructions. Register indices, immediates and heights are bit vectors of
exactly the width of their field (30_encoding.md R91), so every value of them is encodable; the one check
left is on the low nibble of 5XYN and 9XYN under STRICT_5_9 (30_encoding.md R94, R97). -/

namespace Sys2Proof

/-- Is `i` an instruction under the given value of STRICT_5_9? With `true`, 5XYN and 9XYN with n ≠ 0 are
unsupported words and so no instruction (30_encoding.md R97). -/
def Instr.wfWith (strict : Bool) : Instr → Bool
  | .seReg _ _ n => !strict || n == 0
  | .sneReg _ _ n => !strict || n == 0
  | .cls | .ret | .jp _ | .call _ | .seImm _ _ | .sneImm _ _ | .ldImm _ _ | .addImm _ _ | .ldReg _ _
  | .orReg _ _ | .andReg _ _ | .xorReg _ _ | .addReg _ _ | .subReg _ _ | .shr _ _ | .subnReg _ _
  | .shl _ _ | .ldI _ | .jpV0 _ | .rnd _ _ | .drw _ _ _ | .skp _ | .sknp _ | .ldVxDt _ | .ldVxK _
  | .ldDtVx _ | .ldStVx _ | .addI _ | .ldF _ | .ldB _ | .ldMemVx _ | .ldVxMem _ => true

/-- Well-formed on this hardware. -/
def Instr.wf (i : Instr) : Bool := i.wfWith Machine.hw.strict59

end Sys2Proof
end

