-- ==== Sys2Proof/Decode.lean ====
section
/-! DEFINITION. Decoding and encoding: the fields of a word (30_encoding.md R91), the dispatch of R94, the
opcode table's rows (R96), the encoder, and `decodeTableWord` over the table's numbering of bits. -/

namespace Sys2Proof

/-! ### Fields of an instruction word (30_encoding.md R91) -/

/-- `c`, bits 15..12. -/
def fieldC (w : Word) : Nib := w.extractLsb' 12 4
/-- `x`, bits 11..8. -/
def fieldX (w : Word) : Reg := w.extractLsb' 8 4
/-- `y`, bits 7..4. -/
def fieldY (w : Word) : Reg := w.extractLsb' 4 4
/-- `n`, bits 3..0. -/
def fieldN (w : Word) : Nib := w.extractLsb' 0 4
/-- `nn`, bits 7..0. -/
def fieldNN (w : Word) : Byte := w.extractLsb' 0 8
/-- `nnn`, bits 11..0. -/
def fieldNNN (w : Word) : Addr12 := w.extractLsb' 0 12

/-! ### Decoding -/

/-- Why bytes are no instruction. -/
inductive DecodeError where
  /-- The word is one of the unsupported words of 30_encoding.md R97. -/
  | unsupported (w : Word)
  /-- Fewer than the two bytes of an instruction (30_encoding.md R90). -/
  | truncated
  deriving DecidableEq, Repr

/-- Class 0: 00E0 and 00EE, any other address is unsupported (R94, R98). -/
def decodeClass0 (w : Word) : Except DecodeError Instr :=
  if fieldNNN w = 0x0E0 then .ok .cls
  else if fieldNNN w = 0x0EE then .ok .ret
  else .error (.unsupported w)

/-- Class 8: the sub-opcode is `n` (R94). -/
def decodeClass8 (w : Word) : Except DecodeError Instr :=
  if fieldN w = 0x0 then .ok (.ldReg (fieldX w) (fieldY w))
  else if fieldN w = 0x1 then .ok (.orReg (fieldX w) (fieldY w))
  else if fieldN w = 0x2 then .ok (.andReg (fieldX w) (fieldY w))
  else if fieldN w = 0x3 then .ok (.xorReg (fieldX w) (fieldY w))
  else if fieldN w = 0x4 then .ok (.addReg (fieldX w) (fieldY w))
  else if fieldN w = 0x5 then .ok (.subReg (fieldX w) (fieldY w))
  else if fieldN w = 0x6 then .ok (.shr (fieldX w) (fieldY w))
  else if fieldN w = 0x7 then .ok (.subnReg (fieldX w) (fieldY w))
  else if fieldN w = 0xE then .ok (.shl (fieldX w) (fieldY w))
  else .error (.unsupported w)

/-- Class E: the sub-opcode is `nn` (R94). -/
def decodeClassE (w : Word) : Except DecodeError Instr :=
  if fieldNN w = 0x9E then .ok (.skp (fieldX w))
  else if fieldNN w = 0xA1 then .ok (.sknp (fieldX w))
  else .error (.unsupported w)

/-- Class F: the sub-opcode is `nn` (R94). -/
def decodeClassF (w : Word) : Except DecodeError Instr :=
  if fieldNN w = 0x07 then .ok (.ldVxDt (fieldX w))
  else if fieldNN w = 0x0A then .ok (.ldVxK (fieldX w))
  else if fieldNN w = 0x15 then .ok (.ldDtVx (fieldX w))
  else if fieldNN w = 0x18 then .ok (.ldStVx (fieldX w))
  else if fieldNN w = 0x1E then .ok (.addI (fieldX w))
  else if fieldNN w = 0x29 then .ok (.ldF (fieldX w))
  else if fieldNN w = 0x33 then .ok (.ldB (fieldX w))
  else if fieldNN w = 0x55 then .ok (.ldMemVx (fieldX w))
  else if fieldNN w = 0x65 then .ok (.ldVxMem (fieldX w))
  else .error (.unsupported w)

/-- Classes 5 and 9: `n` is looked at only under STRICT_5_9 (R94, R97). -/
def decodeReg59 (strict : Bool) (w : Word) (i : Instr) : Except DecodeError Instr :=
  if strict && fieldN w != 0 then .error (.unsupported w) else .ok i

/-- The decoder of 30_encoding.md R94, for either value of STRICT_5_9. -/
def decodeWordWith (strict : Bool) (w : Word) : Except DecodeError Instr :=
  match (fieldC w).toNat with
  | 0x0 => decodeClass0 w
  | 0x1 => .ok (.jp (fieldNNN w))
  | 0x2 => .ok (.call (fieldNNN w))
  | 0x3 => .ok (.seImm (fieldX w) (fieldNN w))
  | 0x4 => .ok (.sneImm (fieldX w) (fieldNN w))
  | 0x5 => decodeReg59 strict w (.seReg (fieldX w) (fieldY w) (fieldN w))
  | 0x6 => .ok (.ldImm (fieldX w) (fieldNN w))
  | 0x7 => .ok (.addImm (fieldX w) (fieldNN w))
  | 0x8 => decodeClass8 w
  | 0x9 => decodeReg59 strict w (.sneReg (fieldX w) (fieldY w) (fieldN w))
  | 0xA => .ok (.ldI (fieldNNN w))
  | 0xB => .ok (.jpV0 (fieldNNN w))
  | 0xC => .ok (.rnd (fieldX w) (fieldNN w))
  | 0xD => .ok (.drw (fieldX w) (fieldY w) (fieldN w))
  | 0xE => decodeClassE w
  | _ => decodeClassF w

/-- The decoder of this hardware. -/
def decodeWord (w : Word) : Except DecodeError Instr := decodeWordWith Machine.hw.strict59 w

/-- The big-endian word of two bytes: the first is bits 15..8, the second bits 7..0 (20_memory.md R64). -/
def wordOfBytes (hi lo : Byte) : Word := hi.setWidth 16 <<< 8 ||| lo.setWidth 16
/-- The byte at the lower address: bits 15..8 (20_memory.md R64). -/
def hiByte (w : Word) : Byte := w.extractLsb' 8 8
/-- The byte at the higher address: bits 7..0 (20_memory.md R64). -/
def loByte (w : Word) : Byte := w.extractLsb' 0 8

/-- Decoding bytes as they lie in memory: an instruction is exactly two bytes (30_encoding.md R90); the rest
of the list is given back. -/
def decode : List Byte → Except DecodeError (Instr × List Byte)
  | hi :: lo :: rest =>
    match decodeWord (wordOfBytes hi lo) with
    | .ok i => .ok (i, rest)
    | .error e => .error e
  | _ => .error .truncated

/-- The instruction read from a word of `nbits` bits numbered as spec/opcode_table.json numbers them (bit 0
least significant; every row has 16 bits): its two bytes, big-endian, through `decode`. -/
def decodeTableWord (nbits w : Nat) : Option Instr :=
  let word : Word := BitVec.ofNat 16 (w % 2 ^ nbits)
  match decode [hiByte word, loByte word] with
  | .ok (i, _) => some i
  | .error _ => none

/-! ### Encoding (30_encoding.md R91, R96; the "Encoding" line of every instruction rule) -/

/-- A word from class and `nnn`. -/
def packNNN (c : Nib) (nnn : Addr12) : Word := c.setWidth 16 <<< 12 ||| nnn.setWidth 16
/-- A word from class, `x` and `nn`. -/
def packXNN (c : Nib) (x : Reg) (nn : Byte) : Word :=
  c.setWidth 16 <<< 12 ||| x.setWidth 16 <<< 8 ||| nn.setWidth 16
/-- A word from class, `x`, `y` and `n`. -/
def packXYN (c : Nib) (x y : Reg) (n : Nib) : Word :=
  c.setWidth 16 <<< 12 ||| x.setWidth 16 <<< 8 ||| y.setWidth 16 <<< 4 ||| n.setWidth 16

/-- The word of an instruction. -/
def encodeWord : Instr → Word
  | .cls => packNNN 0x0 0x0E0
  | .ret => packNNN 0x0 0x0EE
  | .jp nnn => packNNN 0x1 nnn
  | .call nnn => packNNN 0x2 nnn
  | .seImm x nn => packXNN 0x3 x nn
  | .sneImm x nn => packXNN 0x4 x nn
  | .seReg x y n => packXYN 0x5 x y n
  | .ldImm x nn => packXNN 0x6 x nn
  | .addImm x nn => packXNN 0x7 x nn
  | .ldReg x y => packXYN 0x8 x y 0x0
  | .orReg x y => packXYN 0x8 x y 0x1
  | .andReg x y => packXYN 0x8 x y 0x2
  | .xorReg x y => packXYN 0x8 x y 0x3
  | .addReg x y => packXYN 0x8 x y 0x4
  | .subReg x y => packXYN 0x8 x y 0x5
  | .shr x y => packXYN 0x8 x y 0x6
  | .subnReg x y => packXYN 0x8 x y 0x7
  | .shl x y => packXYN 0x8 x y 0xE
  | .sneReg x y n => packXYN 0x9 x y n
  | .ldI nnn => packNNN 0xA nnn
  | .jpV0 nnn => packNNN 0xB nnn
  | .rnd x nn => packXNN 0xC x nn
  | .drw x y n => packXYN 0xD x y n
  | .skp x => packXNN 0xE x 0x9E
  | .sknp x => packXNN 0xE x 0xA1
  | .ldVxDt x => packXNN 0xF x 0x07
  | .ldVxK x => packXNN 0xF x 0x0A
  | .ldDtVx x => packXNN 0xF x 0x15
  | .ldStVx x => packXNN 0xF x 0x18
  | .addI x => packXNN 0xF x 0x1E
  | .ldF x => packXNN 0xF x 0x29
  | .ldB x => packXNN 0xF x 0x33
  | .ldMemVx x => packXNN 0xF x 0x55
  | .ldVxMem x => packXNN 0xF x 0x65

/-- The bytes of an instruction as they lie in memory (30_encoding.md R90, 20_memory.md R64). -/
def encode (i : Instr) : List Byte := [hiByte (encodeWord i), loByte (encodeWord i)]

/-! ### The opcode table (spec/opcode_table.json, columns match and mask) -/

/-- A row's fixed bits: the value they have and the mask that selects them. -/
structure OpcodeRow where
  pattern : Word
  mask : Word
  deriving DecidableEq, Repr

/-- The row of each instruction in spec/opcode_table.json. -/
def opcodeRow : Instr → OpcodeRow
  | .cls => ⟨0x00E0, 0xFFFF⟩
  | .ret => ⟨0x00EE, 0xFFFF⟩
  | .jp _ => ⟨0x1000, 0xF000⟩
  | .call _ => ⟨0x2000, 0xF000⟩
  | .seImm _ _ => ⟨0x3000, 0xF000⟩
  | .sneImm _ _ => ⟨0x4000, 0xF000⟩
  | .seReg _ _ _ => ⟨0x5000, 0xF000⟩
  | .ldImm _ _ => ⟨0x6000, 0xF000⟩
  | .addImm _ _ => ⟨0x7000, 0xF000⟩
  | .ldReg _ _ => ⟨0x8000, 0xF00F⟩
  | .orReg _ _ => ⟨0x8001, 0xF00F⟩
  | .andReg _ _ => ⟨0x8002, 0xF00F⟩
  | .xorReg _ _ => ⟨0x8003, 0xF00F⟩
  | .addReg _ _ => ⟨0x8004, 0xF00F⟩
  | .subReg _ _ => ⟨0x8005, 0xF00F⟩
  | .shr _ _ => ⟨0x8006, 0xF00F⟩
  | .subnReg _ _ => ⟨0x8007, 0xF00F⟩
  | .shl _ _ => ⟨0x800E, 0xF00F⟩
  | .sneReg _ _ _ => ⟨0x9000, 0xF000⟩
  | .ldI _ => ⟨0xA000, 0xF000⟩
  | .jpV0 _ => ⟨0xB000, 0xF000⟩
  | .rnd _ _ => ⟨0xC000, 0xF000⟩
  | .drw _ _ _ => ⟨0xD000, 0xF000⟩
  | .skp _ => ⟨0xE09E, 0xF0FF⟩
  | .sknp _ => ⟨0xE0A1, 0xF0FF⟩
  | .ldVxDt _ => ⟨0xF007, 0xF0FF⟩
  | .ldVxK _ => ⟨0xF00A, 0xF0FF⟩
  | .ldDtVx _ => ⟨0xF015, 0xF0FF⟩
  | .ldStVx _ => ⟨0xF018, 0xF0FF⟩
  | .addI _ => ⟨0xF01E, 0xF0FF⟩
  | .ldF _ => ⟨0xF029, 0xF0FF⟩
  | .ldB _ => ⟨0xF033, 0xF0FF⟩
  | .ldMemVx _ => ⟨0xF055, 0xF0FF⟩
  | .ldVxMem _ => ⟨0xF065, 0xF0FF⟩

/-- Does the word `w` have the fixed bits of the row? -/
def OpcodeRow.matches (r : OpcodeRow) (w : Word) : Bool := w &&& r.mask == r.pattern

end Sys2Proof
end

