-- ==== Sys2Proof/Machine/State.lean ====
section
/-! DEFINITION. The state of the core as plain data (10_state.md R30 to R49), the reasons a step of the model
can stop, and the state after reset (10_state.md R51). -/

namespace Sys2Proof.Machine

/-- The fault kinds of 60_exceptions.md R300. They are the SPEC's faults: raising one is a next state of the
model, with MODE = FAULTED (40_engine.md R132). -/
inductive FaultKind where
  | outOfBoundsAccess
  | stackOverflow
  | stackUnderflow
  | misalignedFetch
  | unsupportedInstruction
  deriving DecidableEq, Repr

/-- The fault record of 10_state.md R45. -/
structure FaultRecord where
  kind : FaultKind
  /-- Address of the faulting instruction, or the PC of a fetch that faulted. -/
  pc   : Word
  /-- The instruction word, or IR's unchanged value when the fetch itself faulted. -/
  word : Word
  /-- First out-of-range address, or the odd PC, or 0. -/
  addr : Word
  deriving DecidableEq, Repr

/-- MODE (10_state.md R44). -/
inductive Mode where
  | running
  | awaitingKey (r : Reg)
  | faulted (f : FaultRecord)
  deriving DecidableEq, Repr

/-- Whether a session is open (00_scope.md R17, 40_engine.md R142, 70_reset_and_hazards.md R341). -/
inductive Session where
  /-- A session with a legal image is open. -/
  | live
  /-- A reset with an oversize image was refused: no session until a reset with a legal image (R341). -/
  | noSession
  /-- The host shut the core down: the state is discarded and nothing is observable (R142, 93 K24); only a
  reset with a legal image happens any more, and it starts a new session (R120, R340). -/
  | ended
  deriving DecidableEq, Repr

/-- The direction of a key event (40_engine.md R121). -/
inductive KeyDir where
  | down
  | up
  deriving DecidableEq, Repr

/-- The kinds of step of 40_engine.md R120. -/
inductive Event where
  /-- The core's turn: one instruction step. -/
  | instruction
  /-- A key event (R133, R134). -/
  | key (k : Nib) (dir : KeyDir)
  /-- A timer tick (R136). -/
  | tick
  /-- A reset with a program image (70_reset_and_hazards.md R340). -/
  | reset (image : List Byte)
  /-- Host shutdown (R142). -/
  | shutdown
  deriving DecidableEq, Repr

/-- A soft report on the `unsupported` output (40_engine.md R121, R127). -/
structure SoftReport where
  pc   : Word
  word : Word
  deriving DecidableEq, Repr

/-- Main memory (10_state.md R46): the cells that differ from the reset contents, addresses strictly rising.
What an unlisted address reads as is `resetByte` (Machine/Ops.lean). -/
abbrev Memory := List Host.Cell

/-- The framebuffer FB[y][x]: 32 rows of 64 pixels, a pixel is 0 or 1 (10_state.md R47). -/
abbrev FrameBuffer := Vector (Vector Bool 64) 32

/-- The state of the core. The first thirteen fields are the spec's; `schedule`, `draws` and `reports` are
the model's own (logs 1, 2, 11). -/
structure State where
  /-- V[0..15]; V[15] is VF (10_state.md R30, R31). -/
  v : Vector Byte 16
  /-- PC (R33). -/
  pc : Word
  /-- I (R37). -/
  i : Word
  /-- IR, the current-instruction register (R38). -/
  ir : Word
  /-- DT, the delay timer (R39). -/
  dt : Byte
  /-- ST, the sound timer (R40). -/
  st : Byte
  /-- SP, the stack-depth counter, a number in 0..12 (R41). -/
  sp : Fin 13
  /-- STACK[0..11]; entries at or above SP are stale (R42). -/
  stack : Vector Word 12
  /-- KEYS, bit k is key k (R43). -/
  keys : BitVec 16
  /-- MODE (R44). -/
  mode : Mode
  /-- MEM[0..4095] (R46). -/
  mem : Memory
  /-- FB (R47). -/
  fb : FrameBuffer
  /-- Whether a session is open (00_scope.md R17). -/
  session : Session
  /-- The model's own: the steps the platform has chosen next, first one first; with none the core takes
  instruction steps (40_engine.md R120; log 1). -/
  schedule : List Event
  /-- The model's own: the number of RND draws taken (42_alu.md R228; log 2). -/
  draws : Nat
  /-- The model's own: the soft reports driven so far, oldest first (40_engine.md R127; log 11). -/
  reports : List SoftReport
  deriving DecidableEq, Repr

/-- Why the model's step has no next state. None of them is a fault of the spec: those are next states. -/
inductive Fault where
  /-- Raised by `step` when an instruction step comes up in MODE = FAULTED, where none is enabled
  (60_exceptions.md R305, 93 K14). Safe: the model stops where the core stands still. -/
  | coreFaulted (f : FaultRecord)
  /-- Raised by `step` when an instruction step comes up in MODE = AWAITING_KEY(r), where none is enabled
  (40_engine.md R120, R135, 93 K16). Safe: the model stops where the core waits. -/
  | awaitingKey (r : Reg)
  /-- Raised by `step` when an instruction step comes up while no session is open
  (70_reset_and_hazards.md R341, 93 K8). Safe: the core takes no step there. -/
  | noSession
  /-- Raised by `step` on every step after a shutdown but a reset (40_engine.md R142, 93 K24; log 10). Safe:
  the core takes no step there. -/
  | sessionEnded
  deriving DecidableEq, Repr

/-- Why an instruction has no meaning. -/
inductive Refusal where
  /-- Raised by a refused arm of `exec`: the instruction has no meaning in the model yet. No arm raises it
  now. Safe: the model stops. -/
  | notModelled (mnemonic : String)
  deriving DecidableEq, Repr

/-- What a step or a meaning answers. -/
abbrev Result := Host.Outcome State Fault Refusal

/-- The machine right after reset with an image of length 0 (10_state.md R51, 70_reset_and_hazards.md R340,
R343): every field at the value R51 states, memory at its reset contents. The model's own fields are
empty (logs 1, 2, 11). -/
def State.reset : State where
  v := Vector.replicate 16 0
  pc := BitVec.ofNat 16 hw.progBase
  i := 0
  ir := 0
  dt := 0
  st := 0
  sp := 0
  stack := Vector.replicate 12 0
  keys := 0
  mode := .running
  mem := []
  fb := Vector.replicate 32 (Vector.replicate 64 false)
  session := .live
  schedule := []
  draws := 0
  reports := []

end Sys2Proof.Machine
end

