-- ==== Sys2Proof/Machine/Ops.lean ====
section
/-! DEFINITION. The named operations over memory, registers, the call stack and MODE that every meaning is
written from: 00_scope.md R12 to R14, 20_memory.md R60 to R77, 40_engine.md R122 to R132. -/

namespace Sys2Proof.Machine

/-! ### Main memory (20_memory.md) -/

/-- What an unlisted address reads as: the reset contents, that is the font at 0x000..0x04F and 0x00
elsewhere (10_state.md R51, R52). -/
def resetByte (a : Nat) : Byte :=
  if hw.fontBase ≤ a ∧ a ≤ hw.fontEnd then hw.font.getD (a - hw.fontBase) 0 else 0

/-- MEM[a]: the value last written to `a`, or its reset contents (20_memory.md R71). -/
def Memory.read : Memory → Nat → Byte
  | [], a => resetByte a
  | (b, v) :: rest, a => if a = b then v else Memory.read rest a

/-- List `a` with the value `v`, keeping the addresses rising. -/
def Memory.insert (a : Nat) (v : Byte) : Memory → Memory
  | [] => [(a, v)]
  | (b, u) :: rest =>
    if a < b then (a, v) :: (b, u) :: rest
    else if a = b then (a, v) :: rest
    else (b, u) :: Memory.insert a v rest

/-- Take `a` off the list. -/
def Memory.delete (a : Nat) : Memory → Memory
  | [] => []
  | (b, u) :: rest => if a = b then rest else (b, u) :: Memory.delete a rest

/-- MEM[a] <- v (00_scope.md R13). Writing the reset contents of `a` unlists it, so equal memories are
equal lists. The bound is checked by the caller before any access (20_memory.md R77). -/
def Memory.write (m : Memory) (a : Nat) (v : Byte) : Memory :=
  if v = resetByte a then Memory.delete a m else Memory.insert a v m

/-- MEM[a], MEM[a+1], … <- the bytes of the list, in ascending address order (20_memory.md R65, R77). -/
def Memory.writeBytes (m : Memory) (a : Nat) : List Byte → Memory
  | [] => m
  | b :: bs => Memory.writeBytes (Memory.write m a b) (a + 1) bs

/-- The canonical form: addresses strictly rising, inside the address space, and no cell listed with its
reset contents. -/
abbrev Memory.wf (m : Memory) : Prop :=
  m.Pairwise (fun p q => p.1 < q.1) ∧ ∀ p ∈ m, p.1 < hw.memSize ∧ p.2 ≠ resetByte p.1

/-- The first out-of-range address among a, a+1, …, a+k, or none (`oob` of 43_index_memory.md; 20_memory.md
R63, R77). The sum is exact, nothing wraps. -/
def oob (a k : Nat) : Option Nat :=
  if a + k ≤ hw.addrMax then none else some (max a hw.memSize)

/-- The byte at `a` in the memory of `s`. -/
def State.readMem (s : State) (a : Nat) : Byte := Memory.read s.mem a

/-- Store bytes from address `a` on. -/
def State.storeBytes (s : State) (a : Nat) (bs : List Byte) : State :=
  { s with mem := Memory.writeBytes s.mem a bs }

/-! ### General registers (10_state.md R30) -/

/-- The index of VF (00_scope.md R8, FLAG_REG). -/
def vf : Reg := hw.flagReg

/-- V[r]. -/
def State.readV (s : State) (r : Reg) : Byte := s.v[r.toNat]'r.isLt

/-- V[r] <- b. -/
def State.writeV (s : State) (r : Reg) (b : Byte) : State :=
  { s with v := s.v.set r.toNat b r.isLt }

/-- V[x] <- b and then V[15] <- flag: the flag is what VF holds when x = 15 (40_engine.md R125, D8). -/
def State.writeResultAndFlag (s : State) (x : Reg) (b flag : Byte) : State :=
  (s.writeV x b).writeV vf flag

/-- V[0] .. V[count-1] <- MEM[a] .. MEM[a+count-1], ascending (43_index_memory.md R235). -/
def State.loadRegs (s : State) (a : Nat) : Nat → State
  | 0 => s
  | k + 1 => (s.loadRegs a k).writeV (BitVec.ofNat 4 k) (s.readMem (a + k))

/-! ### PC, call stack (10_state.md R33, R41, R42) -/

/-- PC <- target. -/
def State.jump (s : State) (target : Word) : State := { s with pc := target }

/-- A further PC <- (PC + 2) mod 2^16 when the condition holds, without looking at the skipped word
(41_control_flow.md R174). -/
def State.skipIf (s : State) (cond : Bool) : State :=
  if cond then { s with pc := s.pc + 2 } else s

/-- Push: STACK[SP] <- w, SP <- SP + 1; none when the stack is at capacity (10_state.md R42). -/
def State.push (s : State) (w : Word) : Option State :=
  if h : s.sp.val < 12 then
    some { s with stack := s.stack.set s.sp.val w h, sp := ⟨s.sp.val + 1, by omega⟩ }
  else none

/-- Pop: SP <- SP - 1, and the entry it uncovers, which keeps its value; none when the stack is empty
(10_state.md R42). -/
def State.pop (s : State) : Option (Word × State) :=
  if h : s.sp.val ≠ 0 then
    some (s.stack[s.sp.val - 1]'(by omega), { s with sp := ⟨s.sp.val - 1, by omega⟩ })
  else none

/-! ### Taking a fault (40_engine.md R131, R132, 60_exceptions.md R306) -/

/-- Fault entry: MODE <- FAULTED(f), and nothing else changes. There is no way back but a reset
(60_exceptions.md R307), which is `State.resetWith` (Machine/Events.lean). -/
def State.enterFault (s : State) (f : FaultRecord) : State := { s with mode := .faulted f }

/-- `raise` in the execute part of a step: the record holds the instruction's own address PC - 2 and IR
(40_engine.md R132). The meaning that raises has written nothing (R131). -/
def raise (kind : FaultKind) (addr : Nat) (s : State) : Result :=
  .next (s.enterFault ⟨kind, s.pc - 2, s.ir, BitVec.ofNat 16 addr⟩)

/-- Run `next` when a, …, a+k are all in range, and raise OutOfBoundsAccess with the lowest bad address
otherwise (20_memory.md R77). -/
def checkedAccess (a k : Nat) (s next : State) : Result :=
  match oob a k with
  | some bad => raise .outOfBoundsAccess bad s
  | none => .next next

/-- `suspend(r)`: MODE <- AWAITING_KEY(r) (40_engine.md R126). -/
def State.suspend (s : State) (r : Reg) : State := { s with mode := .awaitingKey r }

/-! ### Fetch (40_engine.md R122, R123) -/

/-- The fetch checks of R122 in their order, for either value of ODD_PC_FETCH: the fault record of the first
that applies. -/
def fetchCheckWith (odd : OddPcFetch) (s : State) : Option FaultRecord :=
  if odd = .fault ∧ s.pc.getLsbD 0 = true then some ⟨.misalignedFetch, s.pc, s.ir, s.pc⟩
  else if s.pc.toNat > hw.addrMax then some ⟨.outOfBoundsAccess, s.pc, s.ir, s.pc⟩
  else if s.pc.toNat + 1 > hw.addrMax then some ⟨.outOfBoundsAccess, s.pc, s.ir, s.pc + 1⟩
  else none

/-- The fetch checks of this hardware. -/
def fetchCheck (s : State) : Option FaultRecord := fetchCheckWith hw.oddPcFetch s

/-- MemRead(PC, 2): the big-endian word at PC (20_memory.md R64). -/
def State.wordAtPc (s : State) : Word :=
  wordOfBytes (s.readMem s.pc.toNat) (s.readMem (s.pc.toNat + 1))

/-- The fetch's two writes: IR <- MemRead(PC, 2) and PC <- (PC + 2) mod 2^16 (R123). -/
def State.fetch (s : State) : State := { s with ir := s.wordAtPc, pc := s.pc + 2 }

/-! ### Unsupported words (40_engine.md R127) -/

/-- What an unsupported word does after its fetch, for either value of UNSUPPORTED_POLICY: a soft report and
no state change of the core, or the fault UnsupportedInstruction. -/
def unsupportedWith (policy : UnsupportedPolicy) (s : State) : Result :=
  match policy with
  | .nop => .next { s with reports := s.reports ++ [⟨s.pc - 2, s.ir⟩] }
  | .fault => raise .unsupportedInstruction 0 s

/-- Unsupported words on this hardware. -/
def unsupported (s : State) : Result := unsupportedWith hw.unsupportedPolicy s

end Sys2Proof.Machine
end

