-- ==== Sys2Proof/Machine/Operands.lean ====
section
/-! DEFINITION. Every operand form of the instructions (30_encoding.md R92, R93; 43_index_memory.md R236). -/

namespace Sys2Proof.Machine

/-- An `nnn` operand written to PC or I: zero-extended to 16 bits (R92). -/
def address (nnn : Addr12) : Word := nnn.setWidth 16

/-- The key, or the font digit, named by the low nibble of V[x] (R93). -/
def State.lowNibble (s : State) (x : Reg) : Nib := (s.readV x).extractLsb' 0 4

/-- Is the key named by the low nibble of V[x] down, per KEYS (45_timers_keys.md R280)? -/
def State.keyDown (s : State) (x : Reg) : Bool := s.keys.getLsbD (s.lowNibble x).toNat

/-- The operand at I: the exact address I + 0, as a number (R236). -/
def State.atI (s : State) : Nat := s.i.toNat

/-- The source of a shift under either value of SHIFT_SOURCE (42_alu.md R202). -/
def State.shiftOperandWith (source : ShiftSource) (s : State) (x y : Reg) : Byte :=
  match source with
  | .vx => s.readV x
  | .vy => s.readV y

/-- The source of a shift on this hardware. -/
def State.shiftOperand (s : State) (x y : Reg) : Byte := State.shiftOperandWith hw.shiftSource s x y

/-- The glyph address FONT_BASE + (V[x] & 0xF) * GLYPH_BYTES (43_index_memory.md R232). -/
def State.glyphAddress (s : State) (x : Reg) : Word :=
  BitVec.ofNat 16 (hw.fontBase + (s.lowNibble x).toNat * hw.glyphBytes)

/-- The BCD digits of a byte: hundreds, tens, ones (43_index_memory.md R233, D25). -/
def bcdDigits (b : Byte) : List Byte :=
  [BitVec.ofNat 8 (b.toNat / 100), BitVec.ofNat 8 (b.toNat / 10 % 10), BitVec.ofNat 8 (b.toNat % 10)]

/-- The registers V[0], …, V[x] (inclusive) as bytes (43_index_memory.md R234). -/
def State.regsUpTo (s : State) (x : Reg) : List Byte := s.v.toList.take (x.toNat + 1)

/-- The start column of a sprite, V[x] mod 64 (44_display.md R261). -/
def State.spriteCol (s : State) (x : Reg) : Nat := (s.readV x).toNat % hw.fbW

/-- The start row of a sprite, V[y] mod 32 (44_display.md R261). -/
def State.spriteRow (s : State) (y : Reg) : Nat := (s.readV y).toNat % hw.fbH

end Sys2Proof.Machine
end

