-- ==== Sys2Proof/Machine/Flags.lean ====
section
/-! DEFINITION. The 8-bit arithmetic of 42_alu.md: exact results reduced modulo 256 (R220), and the values of
VF (R221). -/

namespace Sys2Proof.Machine

/-- A flag as the byte VF receives: 1 or 0 (R221). -/
def flagByte (b : Bool) : Byte := if b then 1 else 0

/-- a + b reduced modulo 256 (R200). -/
def sumByte (a b : Byte) : Byte := BitVec.ofNat 8 (a.toNat + b.toNat)

/-- The carry: 1 iff a + b > 255 (R200). -/
def carryFlag (a b : Byte) : Byte := flagByte (decide (a.toNat + b.toNat > 255))

/-- a − b reduced modulo 256 (R201). -/
def diffByte (a b : Byte) : Byte := BitVec.ofInt 8 ((a.toNat : Int) - b.toNat)

/-- No borrow: 1 iff minuend a ≥ subtrahend b (R201). -/
def noBorrowFlag (a b : Byte) : Byte := flagByte (decide (a.toNat ≥ b.toNat))

/-- s >> 1, bit 7 of the result is 0 (R202). -/
def shiftRightByte (s : Byte) : Byte := s >>> 1

/-- The bit shifted out on the right, s[0] (R202). -/
def lowBitFlag (s : Byte) : Byte := flagByte (s.getLsbD 0)

/-- (s << 1) mod 256, bit 0 of the result is 0 (R204). -/
def shiftLeftByte (s : Byte) : Byte := s <<< 1

/-- The bit shifted out on the left, s[7] (R204). -/
def highBitFlag (s : Byte) : Byte := flagByte (s.getLsbD 7)

end Sys2Proof.Machine
end

