-- ==== Sys2Proof/Machine/Alu.lean ====
section
/-! DEFINITION. The meanings of the ALU instructions (42_alu.md). Operands are read before anything is
written, and a flag is written after the result (40_engine.md R125). -/

namespace Sys2Proof.Machine

/-- LD Vx, nn (R190). -/
def execLdImm (x : Reg) (nn : Byte) (s : State) : Result := .next (s.writeV x nn)

/-- ADD Vx, nn (R191): no flag. -/
def execAddImm (x : Reg) (nn : Byte) (s : State) : Result := .next (s.writeV x (sumByte (s.readV x) nn))

/-- LD Vx, Vy (R195). -/
def execLdReg (x y : Reg) (s : State) : Result := .next (s.writeV x (s.readV y))

/-- OR Vx, Vy (R196): VF unchanged. -/
def execOrReg (x y : Reg) (s : State) : Result := .next (s.writeV x (s.readV x ||| s.readV y))

/-- AND Vx, Vy (R197): VF unchanged. -/
def execAndReg (x y : Reg) (s : State) : Result := .next (s.writeV x (s.readV x &&& s.readV y))

/-- XOR Vx, Vy (R198): VF unchanged. -/
def execXorReg (x y : Reg) (s : State) : Result := .next (s.writeV x (s.readV x ^^^ s.readV y))

/-- ADD Vx, Vy (R200): VF is the carry. -/
def execAddReg (x y : Reg) (s : State) : Result :=
  .next (s.writeResultAndFlag x (sumByte (s.readV x) (s.readV y)) (carryFlag (s.readV x) (s.readV y)))

/-- SUB Vx, Vy (R201): VF = 1 iff no borrow. -/
def execSubReg (x y : Reg) (s : State) : Result :=
  .next (s.writeResultAndFlag x (diffByte (s.readV x) (s.readV y)) (noBorrowFlag (s.readV x) (s.readV y)))

/-- SHR Vx {, Vy} under either value of SHIFT_SOURCE (R202). -/
def execShrWith (source : ShiftSource) (x y : Reg) (s : State) : Result :=
  .next (s.writeResultAndFlag x (shiftRightByte (s.shiftOperandWith source x y))
    (lowBitFlag (s.shiftOperandWith source x y)))

/-- SHR Vx {, Vy} (R202) on this hardware: Vx is shifted and `y` is not read. -/
def execShr (x y : Reg) (s : State) : Result := execShrWith hw.shiftSource x y s

/-- SUBN Vx, Vy (R203): the minuend is Vy. -/
def execSubnReg (x y : Reg) (s : State) : Result :=
  .next (s.writeResultAndFlag x (diffByte (s.readV y) (s.readV x)) (noBorrowFlag (s.readV y) (s.readV x)))

/-- SHL Vx {, Vy} under either value of SHIFT_SOURCE (R204). -/
def execShlWith (source : ShiftSource) (x y : Reg) (s : State) : Result :=
  .next (s.writeResultAndFlag x (shiftLeftByte (s.shiftOperandWith source x y))
    (highBitFlag (s.shiftOperandWith source x y)))

/-- SHL Vx {, Vy} (R204) on this hardware: Vx is shifted and `y` is not read. -/
def execShl (x y : Reg) (s : State) : Result := execShlWith hw.shiftSource x y s

/-- V[x] <- r & nn for the byte r on the `rand` input, one draw taken (R210, R228). -/
def maskDraw (r : Byte) (x : Reg) (nn : Byte) (s : State) : State :=
  { s.writeV x (r &&& nn) with draws := s.draws + 1 }

/-- RND Vx, nn (R210): the draw is the free value `Config.randByte` (R228; log 2). -/
def execRnd (x : Reg) (nn : Byte) (s : State) : Result :=
  .next (maskDraw (Config.randByte s.draws) x nn s)

end Sys2Proof.Machine
end

