-- ==== Sys2Proof/Machine/ControlFlow.lean ====
section
/-! DEFINITION. The meanings of the control-transfer instructions (41_control_flow.md). In each, PC is the
instruction's own address + 2 and IR its word (40_engine.md R124). -/

namespace Sys2Proof.Machine

/-- RET (R160). -/
def execRet (s : State) : Result :=
  match s.pop with
  | some (w, t) => .next (t.jump w)
  | none => raise .stackUnderflow 0 s

/-- JP nnn (R161). -/
def execJp (nnn : Addr12) (s : State) : Result := .next (s.jump (address nnn))

/-- CALL nnn (R162): the pushed value is PC, the CALL's address + 2. -/
def execCall (nnn : Addr12) (s : State) : Result :=
  match s.push s.pc with
  | some t => .next (t.jump (address nnn))
  | none => raise .stackOverflow 0 s

/-- JP V0, nnn (R163): always V0; the sum does not wrap and is not masked. -/
def execJpV0 (nnn : Addr12) (s : State) : Result :=
  .next (s.jump (address nnn + (s.readV 0).setWidth 16))

/-- SE Vx, nn (R170). -/
def execSeImm (x : Reg) (nn : Byte) (s : State) : Result := .next (s.skipIf (s.readV x == nn))

/-- SNE Vx, nn (R171). -/
def execSneImm (x : Reg) (nn : Byte) (s : State) : Result := .next (s.skipIf (s.readV x != nn))

/-- SE Vx, Vy (R172); the low nibble of the word is not read (R100). -/
def execSeReg (x y : Reg) (s : State) : Result := .next (s.skipIf (s.readV x == s.readV y))

/-- SNE Vx, Vy (R173); the low nibble of the word is not read (R100). -/
def execSneReg (x y : Reg) (s : State) : Result := .next (s.skipIf (s.readV x != s.readV y))

end Sys2Proof.Machine
end

