-- ==== Sys2Proof/Machine/Display.lean ====
section
/-! DEFINITION. The framebuffer operations and the meanings of CLS and DRW (44_display.md). -/

namespace Sys2Proof.Machine

/-- FB[py][px]; a position off the screen has no pixel and reads as 0. -/
def FrameBuffer.pixel (fb : FrameBuffer) (py px : Nat) : Bool :=
  if h : py < 32 ∧ px < 64 then (fb[py]'h.1)[px]'h.2 else false

/-- FB[py][px] <- FB[py][px] XOR 1; off the screen nothing changes (R263). -/
def FrameBuffer.flip (fb : FrameBuffer) (py px : Nat) : FrameBuffer :=
  if h : py < 32 ∧ px < 64 then
    fb.set py ((fb[py]'h.1).set px (!(fb[py]'h.1)[px]'h.2) h.2) h.1
  else fb

/-- FB all 0 (R260). -/
def FrameBuffer.clear : FrameBuffer := Vector.replicate 32 (Vector.replicate 64 false)

/-- What the compositor carries from pixel to pixel: the framebuffer and the collision so far (R265). -/
structure Canvas where
  fb : FrameBuffer
  collision : Bool
  deriving DecidableEq, Repr

/-- One sprite bit at (py, px): a 0 bit or an off-screen position changes nothing; a 1 bit inverts the pixel,
and collides when the pixel was 1 (R262 to R265). -/
def Canvas.plot (c : Canvas) (py px : Nat) (bit : Bool) : Canvas :=
  if px < hw.fbW ∧ py < hw.fbH ∧ bit = true then
    ⟨c.fb.flip py px, c.collision || c.fb.pixel py px⟩
  else c

/-- The first `cols` bits of one sprite row from column x0 on; bit 7 is the leftmost (R262). -/
def Canvas.plotRow (c : Canvas) (row : Byte) (py x0 : Nat) : Nat → Canvas
  | 0 => c
  | col + 1 => (c.plotRow row py x0 col).plot py (x0 + col) (row.getLsbD (7 - col))

/-- The first `rows` rows of the sprite at address a, from (y0, x0) on (R265). -/
def Canvas.plotRows (c : Canvas) (m : Memory) (a y0 x0 : Nat) : Nat → Canvas
  | 0 => c
  | r + 1 => (c.plotRows m a y0 x0 r).plotRow (Memory.read m (a + r)) (y0 + r) x0 8

/-- The framebuffer and collision that DRW Vx, Vy, n leaves, from the state before it (R265). -/
def State.drawn (s : State) (x y : Reg) (n : Nib) : Canvas :=
  Canvas.plotRows ⟨s.fb, false⟩ s.mem s.atI (s.spriteRow y) (s.spriteCol x) n.toNat

/-- The pixels and then VF, from a canvas (R264). -/
def State.showCanvas (s : State) (c : Canvas) : State :=
  { s with fb := c.fb }.writeV vf (flagByte c.collision)

/-- CLS (R260). -/
def execCls (s : State) : Result := .next { s with fb := FrameBuffer.clear }

/-- DRW Vx, Vy, n (R265). With n = 0 no byte is read, no bound is checked and VF is 0 (R261). -/
def execDrw (x y : Reg) (n : Nib) (s : State) : Result :=
  if n = 0 then .next (s.showCanvas ⟨s.fb, false⟩)
  else checkedAccess s.atI (n.toNat - 1) s (s.showCanvas (s.drawn x y n))

end Sys2Proof.Machine
end

