-- ==== Sys2Proof/Machine/IndexMemory.lean ====
section
/-! DEFINITION. The meanings of the index-register and memory-transfer instructions (43_index_memory.md).
Every address is checked before anything is written (20_memory.md R77, 40_engine.md R131). -/

namespace Sys2Proof.Machine

/-- LD I, nnn (R230). -/
def execLdI (nnn : Addr12) (s : State) : Result := .next { s with i := address nnn }

/-- ADD I, Vx (R231): modulo 2^16, no flag, no bound check. -/
def execAddI (x : Reg) (s : State) : Result :=
  .next { s with i := s.i + (s.readV x).setWidth 16 }

/-- LD F, Vx (R232). -/
def execLdF (x : Reg) (s : State) : Result := .next { s with i := s.glyphAddress x }

/-- LD B, Vx (R233): the BCD digits at I, I+1, I+2. -/
def execLdB (x : Reg) (s : State) : Result :=
  checkedAccess s.atI 2 s (s.storeBytes s.atI (bcdDigits (s.readV x)))

/-- LD [I], Vx (R234): V[0] .. V[x] at I .. I+x; I is unchanged. -/
def execLdMemVx (x : Reg) (s : State) : Result :=
  checkedAccess s.atI x.toNat s (s.storeBytes s.atI (s.regsUpTo x))

/-- LD Vx, [I] (R235): V[0] .. V[x] from I .. I+x; I is unchanged. -/
def execLdVxMem (x : Reg) (s : State) : Result :=
  checkedAccess s.atI x.toNat s (s.loadRegs s.atI (x.toNat + 1))

end Sys2Proof.Machine
end

