-- ==== Sys2Proof/Machine/TimersKeys.lean ====
section
/-! DEFINITION. The meanings of the key and timer instructions (45_timers_keys.md). -/

namespace Sys2Proof.Machine

/-- SKP Vx (R280). -/
def execSkp (x : Reg) (s : State) : Result := .next (s.skipIf (s.keyDown x))

/-- SKNP Vx (R281). -/
def execSknp (x : Reg) (s : State) : Result := .next (s.skipIf (!s.keyDown x))

/-- LD Vx, DT (R282). -/
def execLdVxDt (x : Reg) (s : State) : Result := .next (s.writeV x s.dt)

/-- LD Vx, K (R284): suspends; V[x] is written by the key-down event that ends the wait (40_engine.md R134). -/
def execLdVxK (x : Reg) (s : State) : Result := .next (s.suspend x)

/-- LD DT, Vx (R285). -/
def execLdDtVx (x : Reg) (s : State) : Result := .next { s with dt := s.readV x }

/-- LD ST, Vx (R286). -/
def execLdStVx (x : Reg) (s : State) : Result := .next { s with st := s.readV x }

end Sys2Proof.Machine
end

