-- ==== Sys2Proof/Machine/Events.lean ====
section
/-! DEFINITION. The input steps: key events and ticks (40_engine.md R133 to R136), reset with an image
(70_reset_and_hazards.md R340, R341) and shutdown (40_engine.md R142). -/

namespace Sys2Proof.Machine

/-- Does the core take key events and ticks? In RUNNING and AWAITING_KEY of an open session (40_engine.md
R120); in FAULTED and with no session it takes none (60_exceptions.md R305, 70_reset_and_hazards.md R341). -/
def State.takesInputs (s : State) : Bool :=
  match s.session, s.mode with
  | .live, .running => true
  | .live, .awaitingKey _ => true
  | _, _ => false

/-- KEYS with bit k set or cleared (R133). -/
def keysAfter (keys : BitVec 16) (k : Nib) (dir : KeyDir) : BitVec 16 :=
  match dir with
  | .down => keys ||| ((1 : BitVec 16) <<< k.toNat)
  | .up => keys &&& ~~~((1 : BitVec 16) <<< k.toNat)

/-- A key event where one is taken: KEYS changes (R133), and a down event in AWAITING_KEY(r) writes k to
V[r] and ends the wait (R134), whether or not that key's bit was already set (D19). -/
def State.takeKey (s : State) (k : Nib) (dir : KeyDir) : State :=
  match s.mode, dir with
  | .awaitingKey r, .down =>
    { s.writeV r (k.setWidth 8) with keys := keysAfter s.keys k .down, mode := .running }
  | _, _ => { s with keys := keysAfter s.keys k dir }

/-- A timer one tick later: one less, and never below zero (R136). -/
def countDown (t : Byte) : Byte := if t.toNat > 0 then t - 1 else t

/-- A tick where one is taken: each timer counts down on its own (R136). -/
def State.takeTick (s : State) : State := { s with dt := countDown s.dt, st := countDown s.st }

/-- The state right after a reset with this image (R340, 10_state.md R51). -/
def State.launch (image : List Byte) : State :=
  { State.reset with mem := Memory.writeBytes State.reset.mem hw.progBase image }

/-- reset(image) at any time, in any MODE, after a shutdown too: a new session, everything earlier discarded
(R340, 40_engine.md R120, D22). An image longer than PROG_MAX is refused: the reset does not happen and no
session is open; one that a shutdown ended stays ended (R341; log 9). What the platform has chosen for later,
and the count of draws, are the model's own and go on (logs 1, 2). -/
def State.resetWith (s : State) (image : List Byte) : State :=
  if image.length ≤ hw.progMax then
    { State.launch image with schedule := s.schedule, draws := s.draws }
  else
    match s.session with
    | .ended => s
    | _ => { s with session := .noSession }

/-- Shutdown, in any MODE: the session ends and the core's state is discarded (40_engine.md R142). The discarded
fields hold the reset values, which no output shows (Machine/Outputs.lean; log 10); what the platform has
chosen and the count of draws are no state of the core. -/
def State.shutDown (s : State) : State :=
  { State.reset with session := .ended, schedule := s.schedule, draws := s.draws }

/-- Is the input enabled at all in this session? A reset always is; after a shutdown nothing else
(40_engine.md R120, R142; DEDUCED, log 10). With no session after a refused image a shutdown is admitted too: R120
calls it always enabled, R341 says that the core takes no step until a legal reset (DESIGN CHOICE, log 23); a key
event or a tick is used up there (log 8). -/
def State.admits (s : State) (e : Event) : Bool :=
  match s.session, e with
  | .ended, .reset _ => true
  | .ended, _ => false
  | _, _ => true

/-- An input step; an input that is not taken changes nothing (log 8). `instruction` is no input: it is the
engine's (Machine/Engine.lean), and nothing happens for it here. -/
def State.takeInput (s : State) : Event → State
  | .instruction => s
  | .key k dir => if s.takesInputs then s.takeKey k dir else s
  | .tick => if s.takesInputs then s.takeTick else s
  | .reset image => s.resetWith image
  | .shutdown => s.shutDown

end Sys2Proof.Machine
end

