-- ==== Sys2Proof/Machine/Engine.lean ====
section
/-! DEFINITION. The instruction step (40_engine.md R128) and the choice of the next step (R120). -/

namespace Sys2Proof.Machine

/-- Decode IR and perform it, on the state the fetch left (R124, R127). -/
def executeIr (s : State) : Result :=
  match decodeWord s.ir with
  | .ok i => exec i s
  | .error _ => unsupported s

/-- The instruction step of R128: fetch checks, fetch, execute. -/
def instructionStep (s : State) : Result :=
  match fetchCheck s with
  | some f => .next (s.enterFault f)
  | none => executeIr s.fetch

/-- The core's turn: an instruction step where one is enabled, and the named stop that says why there is
none otherwise (R120, 60_exceptions.md R305, 70_reset_and_hazards.md R341). -/
def coreTurn (s : State) : Result :=
  match s.session with
  | .noSession => .fault .noSession
  | .ended => .fault .sessionEnded
  | .live =>
    match s.mode with
    | .running => instructionStep s
    | .awaitingKey r => .fault (.awaitingKey r)
    | .faulted f => .fault (.coreFaulted f)

/-- One step of the kind the schedule says; with nothing scheduled, the core's turn (R120; log 1). -/
def nextStep (s : State) : Result :=
  match s.schedule with
  | [] => coreTurn s
  | .instruction :: rest => coreTurn { s with schedule := rest }
  | e :: rest =>
    if s.admits e then .next (State.takeInput { s with schedule := rest } e) else .fault .sessionEnded

/-- Where a fetch succeeds on this hardware: PC even and both bytes in range (R122, 10_state.md R36). -/
def fetchable (pc : Word) : Bool := pc.toNat % 2 == 0 && decide (pc.toNat + 1 ≤ hw.addrMax)

end Sys2Proof.Machine
end

