-- ==== Sys2Proof/Machine/Step.lean ====
section
/-! DEFINITION. The step of the machine, and placing an instruction where the next step fetches it. -/

namespace Sys2Proof.Machine

/-- One step of the core (40_engine.md R120). -/
def step (s : State) : Host.Outcome State Fault Refusal := nextStep s

/-- `s` with the word `w` (numbered as spec/opcode_table.json numbers bits, `nbits` of them) stored,
big-endian, where the very next step fetches it: at PC, or at PROG_BASE when no fetch can succeed at PC; in
RUNNING of an open session; with the core's turn put before anything scheduled. -/
def State.withFetchWord (s : State) (nbits w : Nat) : State :=
  let word : Word := BitVec.ofNat 16 (w % 2 ^ nbits)
  let pc : Word := if fetchable s.pc then s.pc else BitVec.ofNat 16 hw.progBase
  { s with
    pc := pc
    mode := .running
    session := .live
    schedule := if s.schedule.isEmpty then [] else .instruction :: s.schedule
    mem := Memory.writeBytes s.mem pc.toNat [hiByte word, loByte word] }

end Sys2Proof.Machine
end

