-- ==== Sys2Proof/Machine/Outputs.lean ====
section
/-! DEFINITION. The outputs of the core, each a function of the state between two steps (40_engine.md R121,
R141; 10_state.md R47, R50; 60_exceptions.md R300). Reading one changes nothing. After a shutdown no output
shows anything (R142, 93 K24). -/

namespace Sys2Proof.Machine

/-- The code of a fault kind (60_exceptions.md R300). -/
def FaultKind.code : FaultKind → Nat
  | .outOfBoundsAccess => 0
  | .stackOverflow => 1
  | .stackUnderflow => 2
  | .misalignedFetch => 3
  | .unsupportedInstruction => 4

/-- What an output shows: the value `a`, and nothing after a shutdown (R142, 93 K24). After a refused
reset the kept state is still shown (DESIGN CHOICE, log 9). -/
def State.shown {α : Type} (s : State) (a : α) : Option α :=
  match s.session with
  | .ended => none
  | _ => some a

/-- `fb`: the W×H grid of bytes 0 or 1, FB[y][x] at index y*64 + x (R141, R47). -/
def State.fbOut (s : State) : Option (List Byte) :=
  s.shown (s.fb.toList.flatMap fun row => row.toList.map flagByte)

/-- The fault that stopped the core, or none (10_state.md R44). -/
def State.faultRecord (s : State) : Option FaultRecord :=
  match s.mode with
  | .faulted f => some f
  | _ => none

/-- `fault`: the fault that stopped the core, or none (R121, R132). -/
def State.faultOut (s : State) : Option (Option FaultRecord) := s.shown s.faultRecord

/-- `unsupported`: the soft reports driven so far, oldest first (R121, R127; log 11). -/
def State.unsupportedOut (s : State) : Option (List SoftReport) := s.shown s.reports

/-- `sound`: the value of ST (R121; 10_state.md R40). -/
def State.soundOut (s : State) : Option Byte := s.shown s.st

/-- `state`: the introspection view (10_state.md R50). -/
structure View where
  v : Vector Byte 16
  pc : Word
  i : Word
  ir : Word
  dt : Byte
  st : Byte
  stack : Vector Word 12
  sp : Nat
  mode : Mode
  keys : BitVec 16
  deriving DecidableEq, Repr

/-- `state`: what the host reads of the core (R50). -/
def State.view (s : State) : Option View :=
  s.shown ⟨s.v, s.pc, s.i, s.ir, s.dt, s.st, s.stack, s.sp.val, s.mode, s.keys⟩

end Sys2Proof.Machine
end

