-- ==== Sys2Proof/Safety.lean ====
section
/-! DEFINITION. What counts as a safe run, in the terms claims use: the launch premises of 40_engine.md R148, the
end of a run (R147), and the invariant of reachable states (10_state.md R34, R53). -/

namespace Sys2Proof.Machine

/-- `img_ok(img)` (R148, 70_reset_and_hazards.md R341). -/
def imgOk (image : List Byte) : Prop := image.length ≤ hw.progMax

/-- `fresh(s, img)`: the core's state is the reset state for the image (R148); the model's own schedule and
count of draws may be anything. -/
def fresh (s : State) (image : List Byte) : Prop :=
  s = { State.launch image with schedule := s.schedule, draws := s.draws }

/-- `no_fault(s)` (R148). -/
def noFault (s : State) : Prop := ∀ f, s.mode ≠ .faulted f

/-- `nothing_in_flight(s)`: always true, every step is indivisible (R148). -/
def nothingInFlight (_ : State) : Prop := True

/-- A run under a platform: at each step the platform has chosen the next step, and that step is taken
(40_engine.md R120). `platform n` is the step taken in the state `run n`. DESIGN CHOICE (log 22): a run demands
no fairness. R146 names the tick and key duties as the only liveness premises and does not say whether an enabled
instruction step must ever come, so a platform may choose inputs for ever; a claim that needs the core's turn to
come again takes that as a premise of its own, beside `hostTicks` and `hostKeys`. -/
def IsRun (platform : Nat → Event) (run : Nat → State) : Prop :=
  ∀ n, step { run n with schedule := [platform n] } = .next (run (n + 1))

/-- How many of the platform's first `n` steps are ticks. -/
def ticksBefore (platform : Nat → Event) : Nat → Nat
  | 0 => 0
  | n + 1 => ticksBefore platform n + if platform n = .tick then 1 else 0

/-- The tick duty (R137, R145): `clock n` is the number of whole 1000/60 ms periods that have elapsed when step n
begins. Time goes on without bound, no tick comes before its period has elapsed, and every elapsed period gets
its tick, sooner or later. The clock is the platform's: the core keeps no time (D21). DESIGN CHOICE (log 24): the
duty speaks of the platform's steps alone. R145 and R148 do not say whether it binds where no tick step is
enabled (FAULTED, no session); here it binds in every MODE and session, and a tick used up there counts. -/
structure TickDuty (clock : Nat → Nat) (platform : Nat → Event) : Prop where
  /-- Time does not run backwards. -/
  clock_mono : ∀ n, clock n ≤ clock (n + 1)
  /-- Every number of periods elapses. -/
  clock_unbounded : ∀ p, ∃ n, p ≤ clock n
  /-- One tick per elapsed period, not more. -/
  not_early : ∀ n, ticksBefore platform (n + 1) ≤ clock n
  /-- One tick per elapsed period, not fewer. -/
  delivered : ∀ n, ∃ m, clock n ≤ ticksBefore platform m

/-- `host_ticks` (R148): the host keeps the tick duty, for some passing of time. -/
def hostTicks (platform : Nat → Event) : Prop := ∃ clock, TickDuty clock platform

/-- Step n of a run is an FX0A suspension into V[r]: an instruction step that ends in AWAITING_KEY(r) (R126). -/
def suspendsAt (platform : Nat → Event) (run : Nat → State) (n : Nat) (r : Reg) : Prop :=
  platform n = .instruction ∧ (run (n + 1)).mode = .awaitingKey r

/-- `host_keys(k)` (R148): after each FX0A suspension that the claim depends on (those at the steps of `claims`) the
host delivers a key-down event for key k at some later step. -/
def hostKeys (k : Nib) (platform : Nat → Event) (run : Nat → State) (claims : Nat → Prop) : Prop :=
  ∀ n r, claims n → suspendsAt platform run n r → ∃ m, n < m ∧ platform m = .key k .down

/-- A safe state: a session is open and no fault has stopped the core. -/
def Safe (s : State) : Prop := s.session = .live ∧ noFault s

/-- `halt(h)`: the word 1hhh, JP to its own address h (R147). -/
def haltWord (h : Addr12) : Word := packNNN 0x1 h

/-- The launch has its end at h: h is even, 0x200 ≤ h ≤ 0xFFE, and the bytes at h are halt(h) (R147). -/
def endsAt (s : State) (h : Addr12) : Prop :=
  h.toNat % 2 = 0 ∧ 0x200 ≤ h.toNat ∧ h.toNat ≤ 0xFFE ∧
    s.readMem h.toNat = hiByte (haltWord h) ∧ s.readMem (h.toNat + 1) = loByte (haltWord h)

/-- The run has ended at h: RUNNING, PC = h, and the halting word still there (R147). -/
def atEnd (s : State) (h : Addr12) : Prop :=
  s.mode = .running ∧ s.pc = address h ∧ endsAt s h

/-- What a fault record says of the state that holds it: the word is IR, the address is the fetch's PC or the
instruction's own, and the recorded address is the one the kind calls for (10_state.md R45,
60_exceptions.md R300; UnsupportedInstruction does not occur on this hardware, R301). -/
def recordFits (f : FaultRecord) (s : State) : Prop :=
  f.word = s.ir ∧ (f.pc = s.pc ∨ f.pc = s.pc - 2) ∧
    (match f.kind with
      | .outOfBoundsAccess => 0xFFF < f.addr.toNat
      | .misalignedFetch => f.addr = f.pc ∧ f.pc.toNat % 2 = 1
      | .stackOverflow => f.addr = 0 ∧ s.sp.val = 12
      | .stackUnderflow => f.addr = 0 ∧ s.sp.val = 0
      | .unsupportedInstruction => False)

/-- The invariant of reachable states. -/
structure Inv (s : State) : Prop where
  /-- Memory keeps its canonical form and lists only addresses of the address space (10_state.md R46). -/
  mem_wf : Memory.wf s.mem
  /-- No rule carries PC past 0x10FE (10_state.md R34). -/
  pc_bound : s.pc.toNat ≤ 0x10FE
  /-- A return address is an even address of an instruction + 2 (40_engine.md R122, 41_control_flow.md R162). -/
  stack_fits : ∀ w ∈ s.stack.toList, w.toNat ≤ 0x1000 ∧ w.toNat % 2 = 0
  /-- AWAITING_KEY(r) only after an FX0A with x = r (10_state.md R53). -/
  waiting : ∀ r, s.mode = .awaitingKey r → s.ir = encodeWord (.ldVxK r)
  /-- FAULTED holds a record that fits the state (10_state.md R45). -/
  faulted : ∀ f, s.mode = .faulted f → recordFits f s

end Sys2Proof.Machine
end

