-- ==== Sys2Proof/Certificates/Slice0/Obligations.lean ====
section
/-! DEFINITION. The statements for the provers, from the numbered rules of spec/. Where a statement rests on a
point the spec marks as its own decision (Dn of 92_eei_decisions.md) or on a log entry, its docstring says so.

Reading aid: `t = { s with v := t.v }` says that `t` agrees with `s` in every field but `v`. -/

namespace Sys2Proof.Claims

open Sys2Proof.Machine

/-! ### The words of the "Encoding" lines of the instruction rules -/

/-- `base | nnn`. -/
def wNNN (base : Word) (nnn : Addr12) : Word := base ||| nnn.setWidth 16
/-- `base | x<<8 | nn`. -/
def wXNN (base : Word) (x : Reg) (nn : Byte) : Word := base ||| x.setWidth 16 <<< 8 ||| nn.setWidth 16
/-- `base | x<<8`. -/
def wX (base : Word) (x : Reg) : Word := base ||| x.setWidth 16 <<< 8
/-- `base | x<<8 | y<<4 | n`. -/
def wXYN (base : Word) (x y : Reg) (n : Nib) : Word :=
  base ||| x.setWidth 16 <<< 8 ||| y.setWidth 16 <<< 4 ||| n.setWidth 16

/-! ### Shapes of an instruction's effect -/

/-- `i` completes, sets V[x] to b and changes nothing else: no other register, no flag, no memory, no PC. -/
def SetsOnly (i : Instr) (s : State) (x : Reg) (b : Byte) : Prop :=
  ∃ t, exec i s = .next t ∧ t = { s with v := t.v } ∧ t.readV x = b ∧ ∀ q, q ≠ x → t.readV q = s.readV q

/-- The answer `r` completes: V[15] receives the flag f, V[x] receives b unless x = 15 (where the flag stays,
D8), and nothing else changes. -/
def SetsWithFlag (r : Result) (s : State) (x : Reg) (b f : Byte) : Prop :=
  ∃ t, r = .next t ∧ t = { s with v := t.v } ∧ t.readV 15 = f ∧ (x ≠ 15 → t.readV x = b) ∧
    ∀ q, q ≠ x → q ≠ 15 → t.readV q = s.readV q

/-- `i` completes and leaves PC at `pc`, nothing else changed. -/
def GoesTo (i : Instr) (s : State) (pc : Word) : Prop := exec i s = .next { s with pc := pc }

/-- `i` raises the fault: a next state that differs in MODE alone, with the instruction's own address and word
in the record (40_engine.md R132). -/
def Raises (i : Instr) (s : State) (kind : FaultKind) (addr : Nat) : Prop :=
  exec i s = .next { s with mode := .faulted ⟨kind, s.pc - 2, s.ir, BitVec.ofNat 16 addr⟩ }

/-- The next step is the core's turn, in RUNNING of an open session; `rest` is what stays scheduled (the schedule
is the model's own way to say which step comes next, log 1). -/
def CoreTurn (s : State) (rest : List Event) : Prop :=
  s.session = .live ∧ s.mode = .running ∧
    ((s.schedule = [] ∧ rest = []) ∨ s.schedule = .instruction :: rest)

/-- The two bytes at PC. -/
def bytesAtPc (s : State) : List Byte := [s.readMem s.pc.toNat, s.readMem (s.pc.toNat + 1)]

/-- The state the fetch leaves: IR holds the big-endian word at PC, PC is two further (40_engine.md R123). -/
def afterFetch (s : State) (rest : List Event) : State :=
  { s with
    schedule := rest
    ir := wordOfBytes (s.readMem s.pc.toNat) (s.readMem (s.pc.toNat + 1))
    pc := s.pc + 2 }

/-- The next step is the input `e`; `rest` is what stays scheduled (log 1). -/
def InputTurn (s : State) (e : Event) (rest : List Event) : Prop := s.schedule = e :: rest

/-! ### Sprites (44_display.md R261 to R263) -/

/-- The bit the sprite of DRW Vx, Vy, n has at row py and column px of the screen, 0 where the sprite does not
reach: row r of the sprite is MEM[I + r], and bit 7 is its leftmost pixel. -/
def spriteBit (s : State) (x y : Reg) (n : Nib) (py px : Nat) : Bool :=
  let x0 := (s.readV x).toNat % 64
  let y0 := (s.readV y).toNat % 32
  decide (y0 ≤ py ∧ py < y0 + n.toNat ∧ x0 ≤ px ∧ px < x0 + 8) &&
    (s.readMem (s.atI + (py - y0))).getLsbD (7 - (px - x0))

/-- Every byte of the sprite is in range; none is read with n = 0 (R261). -/
def SpriteInRange (s : State) (n : Nib) : Prop := n = 0 ∨ s.atI + n.toNat - 1 ≤ 0xFFF

/-! ### Groups of instructions -/

/-- The instructions that write VF as a side effect (10_state.md R31). -/
def writesFlag : Instr → Bool
  | .addReg _ _ | .subReg _ _ | .shr _ _ | .subnReg _ _ | .shl _ _ | .drw _ _ _ => true
  | _ => false

/-- The general registers an instruction names as destination (10_state.md R30, 43_index_memory.md R235). -/
def isDest (i : Instr) (q : Reg) : Bool :=
  match i with
  | .ldImm x _ | .addImm x _ | .ldReg x _ | .orReg x _ | .andReg x _ | .xorReg x _ | .addReg x _
  | .subReg x _ | .shr x _ | .subnReg x _ | .shl x _ | .rnd x _ | .ldVxDt x => q == x
  | .ldVxMem x => decide (q.toNat ≤ x.toNat)
  | _ => false

/-- The instructions that write PC in their execute part: jumps, calls, returns and skips (10_state.md R34). -/
def writesPc : Instr → Bool
  | .ret | .jp _ | .call _ | .jpV0 _ | .seImm _ _ | .sneImm _ _ | .seReg _ _ _ | .sneReg _ _ _
  | .skp _ | .sknp _ => true
  | _ => false

/-- How many bytes an instruction touches, from I on: DRW n, LD B three, LD [I] and LD Vx,[I] x + 1, the others
none (20_memory.md R62). -/
def bytesTouched : Instr → Nat
  | .drw _ _ n => n.toNat
  | .ldB _ => 3
  | .ldMemVx x | .ldVxMem x => x.toNat + 1
  | _ => 0

/-- The lowest out-of-range address that a memory instruction would touch, if any (20_memory.md R77). -/
def firstBadAddress (i : Instr) (s : State) : Option Nat :=
  if bytesTouched i = 0 ∨ s.atI + bytesTouched i ≤ 0x1000 then none else some (max s.atI 0x1000)

end Sys2Proof.Claims

open Sys2Proof Sys2Proof.Machine Sys2Proof.Claims

/-! ## Encoding -/

/-- Decoding an encoded instruction gives it back, with every operand, whatever bytes follow; and the same of
words under either value of STRICT_5_9 (30_encoding.md R91, R94, R96). -/
def Obligations.DecodingAnEncodedInstructionGivesItBack : Prop :=
  (∀ (i : Instr) (rest : List Byte), i.wf = true → decode (encode i ++ rest) = .ok (i, rest)) ∧
    ∀ (strict : Bool) (i : Instr), i.wfWith strict = true → decodeWordWith strict (encodeWord i) = .ok i

/-- A word has one meaning: the instruction decoded from a word encodes to that very word, so no bit of it is
dropped, and is well-formed (30_encoding.md R100). -/
def Obligations.DecodedInstructionEncodesToItsWord : Prop :=
  ∀ (strict : Bool) (w : Word) (i : Instr), decodeWordWith strict w = .ok i →
    encodeWord i = w ∧ i.wfWith strict = true

/-- The decoder agrees with the opcode table: a decoded word has the fixed bits of its instruction's row; a
word with the fixed bits of a row decodes to an instruction of that row; and no word has the fixed bits of
two rows (30_encoding.md R94, R96, opcode_table.json). -/
def Obligations.DecoderAgreesWithTheOpcodeTable : Prop :=
  (∀ (w : Word) (i : Instr), decodeWord w = .ok i → (opcodeRow i).matches w = true) ∧
  (∀ (w : Word) (i : Instr), (opcodeRow i).matches w = true →
    ∃ j, decodeWord w = .ok j ∧ opcodeRow j = opcodeRow i) ∧
  (∀ (w : Word) (i j : Instr), (opcodeRow i).matches w = true → (opcodeRow j).matches w = true →
    opcodeRow i = opcodeRow j)

/-- The unsupported words are exactly those of the table of 30_encoding.md R97, by class and sub-field; with
STRICT_5_9 = true also 5XYN and 9XYN with n ≠ 0. (The counts of R97 are not stated.) -/
def Obligations.UnsupportedWordsAreThoseOfTheTable : Prop :=
  ∀ (strict : Bool) (w : Word),
    (decodeWordWith strict w = .error (.unsupported w) ↔
      (w.toNat / 0x1000 = 0x0 ∧ w.toNat % 0x1000 ∉ [0x0E0, 0x0EE]) ∨
      (w.toNat / 0x1000 = 0x8 ∧ w.toNat % 0x10 ∈ [0x8, 0x9, 0xA, 0xB, 0xC, 0xD, 0xF]) ∨
      (w.toNat / 0x1000 = 0xE ∧ w.toNat % 0x100 ∉ [0x9E, 0xA1]) ∨
      (w.toNat / 0x1000 = 0xF ∧
        w.toNat % 0x100 ∉ [0x07, 0x0A, 0x15, 0x18, 0x1E, 0x29, 0x33, 0x55, 0x65]) ∨
      (strict = true ∧ w.toNat / 0x1000 ∈ [0x5, 0x9] ∧ w.toNat % 0x10 ≠ 0)) ∧
    (decodeWordWith strict w ≠ .error (.unsupported w) → ∃ i, decodeWordWith strict w = .ok i)

/-- The byte pairs that the source's own examples show (30_encoding.md R95), and a few more of the rules'
examples, decode to the instructions they stand for. -/
def Obligations.ExampleBytesDecode : Prop :=
  decode [0x60, 0x05] = .ok (.ldImm 0 5, []) ∧ decode [0x61, 0x03] = .ok (.ldImm 1 3, []) ∧
  decode [0x80, 0x14] = .ok (.addReg 0 1, []) ∧ decode [0xF0, 0x0A] = .ok (.ldVxK 0, []) ∧
  decode [0x22, 0x10] = .ok (.call 0x210, []) ∧ decode [0xD1, 0x25] = .ok (.drw 1 2 5, []) ∧
  decode [0xE0, 0x9E] = .ok (.skp 0, []) ∧ decode [0xF2, 0x65] = .ok (.ldVxMem 2, [])

/-! ## The engine -/

/-- The fetch: an instruction step at an even PC up to 0xFFE writes to IR the word whose bits 15..8 are the byte
at PC and whose bits 7..0 are the byte at PC + 1, adds 2 to PC modulo 2^16, changes nothing else, and goes
on to execute; IR and PC keep these values when the execute part faults (20_memory.md R64, 40_engine.md
R123). -/
def Obligations.FetchReadsTheBigEndianWord : Prop :=
  ∀ s : State, s.session = .live → s.mode = .running → s.pc.toNat % 2 = 0 → s.pc.toNat ≤ 0xFFE →
    ∃ u : State, coreTurn s = executeIr u ∧ u = { s with ir := u.ir, pc := u.pc } ∧
      u.ir.toNat = (s.readMem s.pc.toNat).toNat * 256 + (s.readMem (s.pc.toNat + 1)).toNat ∧
      u.pc.toNat = (s.pc.toNat + 2) % 65536 ∧
      ∀ (t : State) (f : FaultRecord), executeIr u = .next t → t.mode = .faulted f → t.ir = u.ir ∧ t.pc = u.pc

/-- A step runs the decoded instruction: at the core's turn, at an even PC up to 0xFFE, when the two bytes at PC
decode to i, the step is exec of i on the state the fetch left: IR the big-endian word, PC + 2
(40_engine.md R123, R124, R128). -/
def Obligations.StepRunsTheDecodedInstruction : Prop :=
  ∀ (s : State) (rest : List Event) (i : Instr), CoreTurn s rest → s.pc.toNat % 2 = 0 → s.pc.toNat ≤ 0xFFE →
    decode (bytesAtPc s) = .ok (i, []) → step s = exec i (afterFetch s rest)

/-- An unsupported word is a two-byte no-op with a soft report of its address and word; under
UNSUPPORTED_POLICY = fault it would raise UnsupportedInstruction (40_engine.md R127). -/
def Obligations.UnsupportedWordIsATwoByteNoOp : Prop :=
  (∀ (s : State) (rest : List Event) (e : DecodeError), CoreTurn s rest → s.pc.toNat % 2 = 0 →
    s.pc.toNat ≤ 0xFFE → decode (bytesAtPc s) = .error e →
    step s = .next { afterFetch s rest with
      reports := s.reports ++ [⟨s.pc, wordOfBytes (s.readMem s.pc.toNat) (s.readMem (s.pc.toNat + 1))⟩] }) ∧
  ∀ s : State, unsupportedWith .fault s =
    .next { s with mode := .faulted ⟨.unsupportedInstruction, s.pc - 2, s.ir, 0⟩ }

/-- A fetch at an odd PC raises MisalignedFetch, one at an even PC above 0xFFF OutOfBoundsAccess, and both change
nothing but MODE; with ODD_PC_FETCH = allow the checks are on PC and then on PC + 1 (40_engine.md R122; the
odd-PC check, the order and the unchanged PC and IR are the spec's decisions D3, D4, D33). -/
def Obligations.FaultingFetchEntersFaultedOnly : Prop :=
  (∀ (s : State) (rest : List Event), CoreTurn s rest →
    (s.pc.toNat % 2 = 1 → step s =
      .next { s with schedule := rest, mode := .faulted ⟨.misalignedFetch, s.pc, s.ir, s.pc⟩ }) ∧
    (s.pc.toNat % 2 = 0 → 0xFFF < s.pc.toNat → step s =
      .next { s with schedule := rest, mode := .faulted ⟨.outOfBoundsAccess, s.pc, s.ir, s.pc⟩ })) ∧
  ∀ s : State,
    (s.pc.toNat < 0xFFF → fetchCheckWith .allow s = none) ∧
    (s.pc.toNat = 0xFFF → fetchCheckWith .allow s = some ⟨.outOfBoundsAccess, s.pc, s.ir, 0x1000⟩) ∧
    (0xFFF < s.pc.toNat → fetchCheckWith .allow s = some ⟨.outOfBoundsAccess, s.pc, s.ir, s.pc⟩)

/-- Every instruction completes: exec answers a next state for every instruction and every state, and so does
every instruction step at the core's turn, faulting fetches and unsupported words included (the spec's
faults are next states, 40_engine.md R128, R132). -/
def Obligations.EveryInstructionStepHasANextState : Prop :=
  (∀ (i : Instr) (s : State), ∃ t, exec i s = .next t) ∧
    ∀ (s : State) (rest : List Event), CoreTurn s rest → ∃ t, step s = .next t ∧ t.schedule = rest

/-- A store is seen by the very next fetch: when LD [I], Vx leaves t, PC of t is I + k with k + 1 ≤ x, and the
stored registers V[k], V[k+1] decode to j, then the next step of t runs j (20_memory.md R75,
70_reset_and_hazards.md R351; the spec's decision D28). -/
def Obligations.StoredInstructionRunsNext : Prop :=
  ∀ (s t : State) (x k : Reg) (j : Instr) (rest : List Event),
    Memory.wf s.mem → k.toNat + 1 ≤ x.toNat → s.atI + x.toNat ≤ 0xFFF → exec (.ldMemVx x) s = .next t →
    t.pc.toNat = s.atI + k.toNat → t.pc.toNat % 2 = 0 → CoreTurn t rest →
    decode [s.readV k, s.readV (k + 1)] = .ok (j, []) →
    step t = exec j { t with
      schedule := rest, ir := wordOfBytes (s.readV k) (s.readV (k + 1)), pc := t.pc + 2 }

/-- At the end of a run (RUNNING, PC = h, the word 1hhh at h) an instruction step sets IR to that word and
changes nothing else, so the state is again at the end (40_engine.md R147). -/
def Obligations.EndOfRunIsStable : Prop :=
  ∀ (s : State) (rest : List Event) (h : Addr12), CoreTurn s rest → atEnd s h →
    step s = .next { s with schedule := rest, ir := haltWord h } ∧
      atEnd { s with schedule := rest, ir := haltWord h } h

/-! ## Control flow -/

/-- JP nnn and JP V0, nnn: PC receives nnn, or nnn plus V0 with no wrap and no mask; nothing is checked at the
jump and nothing else changes (41_control_flow.md R161, R163; not masking is the spec's decision D2). -/
def Obligations.JumpsLoadThePc : Prop :=
  (∀ nnn, decodeWord (wNNN 0x1000 nnn) = .ok (.jp nnn)) ∧
  (∀ nnn, decodeWord (wNNN 0xB000 nnn) = .ok (.jpV0 nnn)) ∧
  ∀ (nnn : Addr12) (s : State),
    (∃ pc : Word, pc.toNat = nnn.toNat ∧ GoesTo (.jp nnn) s pc) ∧
    (∃ pc : Word, pc.toNat = nnn.toNat + (s.readV 0).toNat ∧ GoesTo (.jpV0 nnn) s pc)

/-- CALL nnn below depth 12 pushes PC (its own address + 2) at STACK[SP], adds 1 to SP and jumps, and leaves
every other entry and all other state alone; at depth 12 it raises StackOverflow and writes nothing
(41_control_flow.md R162). -/
def Obligations.CallPushesTheReturnAddress : Prop :=
  (∀ nnn, decodeWord (wNNN 0x2000 nnn) = .ok (.call nnn)) ∧
  ∀ (nnn : Addr12) (s : State),
    (s.sp.val < 12 → ∃ t, exec (.call nnn) s = .next t ∧
      t = { s with pc := t.pc, sp := t.sp, stack := t.stack } ∧
      t.pc.toNat = nnn.toNat ∧ t.sp.val = s.sp.val + 1 ∧ t.stack[s.sp.val]? = some s.pc ∧
      ∀ j, j ≠ s.sp.val → t.stack[j]? = s.stack[j]?) ∧
    (s.sp.val = 12 → Raises (.call nnn) s .stackOverflow 0)

/-- RET with a nonempty stack takes 1 from SP and loads PC with the entry it uncovers, unchecked and not
cleared; with SP = 0 it raises StackUnderflow and writes nothing (41_control_flow.md R160). -/
def Obligations.RetPopsTheReturnAddress : Prop :=
  decodeWord 0x00EE = .ok .ret ∧
  ∀ s : State,
    (0 < s.sp.val → ∃ t, exec .ret s = .next t ∧ t = { s with pc := t.pc, sp := t.sp } ∧
      t.sp.val = s.sp.val - 1 ∧ s.stack[s.sp.val - 1]? = some t.pc) ∧
    (s.sp.val = 0 → Raises .ret s .stackUnderflow 0)

/-- Call and return round trip: CALL at address a and depth d < 12, then any code that leaves SP and the entries
below it as it found them (it may leave stale entries above, R42), then RET: PC is a + 2 and SP is d again. At depth 12 CALL raises StackOverflow, at depth
0 RET raises StackUnderflow (41_control_flow.md R164). -/
def Obligations.CallThenRetReturnsAfterTheCall : Prop :=
  (∀ (s : State) (a : Word) (nnn : Addr12), s.pc = a + 2 → s.sp.val < 12 →
    ∃ t, exec (.call nnn) s = .next t ∧
      ∀ u : State, u.sp = t.sp → (∀ j, j < t.sp.val → u.stack[j]? = t.stack[j]?) →
        ∃ w, exec .ret u = .next w ∧ w.pc = a + 2 ∧ w.sp = s.sp) ∧
  (∀ (s : State) (nnn : Addr12), s.sp.val = 12 → Raises (.call nnn) s .stackOverflow 0) ∧
  ∀ s : State, s.sp.val = 0 → Raises .ret s .stackUnderflow 0

/-- The skips on an immediate: PC gets a further 2 when V[x] equals nn (SE) or differs from it (SNE), and
nothing else changes (41_control_flow.md R170, R171). -/
def Obligations.ImmediateSkipsAddTwo : Prop :=
  ∀ (x : Reg) (nn : Byte),
    decodeWord (wXNN 0x3000 x nn) = .ok (.seImm x nn) ∧ decodeWord (wXNN 0x4000 x nn) = .ok (.sneImm x nn) ∧
    ∀ s : State,
      GoesTo (.seImm x nn) s (if s.readV x = nn then s.pc + 2 else s.pc) ∧
      GoesTo (.sneImm x nn) s (if s.readV x ≠ nn then s.pc + 2 else s.pc)

/-- The skips on two registers, for any low nibble of the word; under STRICT_5_9 = true a low nibble other than
0 makes the word unsupported (41_control_flow.md R172, R173; the low nibble is the spec's decision D12). -/
def Obligations.RegisterSkipsAddTwo : Prop :=
  ∀ (x y : Reg) (n : Nib),
    decodeWord (wXYN 0x5000 x y n) = .ok (.seReg x y n) ∧ decodeWord (wXYN 0x9000 x y n) = .ok (.sneReg x y n) ∧
    (n ≠ 0 → decodeWordWith true (wXYN 0x5000 x y n) = .error (.unsupported (wXYN 0x5000 x y n)) ∧
      decodeWordWith true (wXYN 0x9000 x y n) = .error (.unsupported (wXYN 0x9000 x y n))) ∧
    ∀ s : State,
      GoesTo (.seReg x y n) s (if s.readV x = s.readV y then s.pc + 2 else s.pc) ∧
      GoesTo (.sneReg x y n) s (if s.readV x ≠ s.readV y then s.pc + 2 else s.pc)

/-- The key skips: SKP adds a further 2 to PC when the key named by the low nibble of V[x] is down per KEYS,
SKNP when it is not, and nothing else changes (45_timers_keys.md R280, R281). -/
def Obligations.KeySkipsReadKeys : Prop :=
  ∀ x : Reg,
    decodeWord (wX 0xE09E x) = .ok (.skp x) ∧ decodeWord (wX 0xE0A1 x) = .ok (.sknp x) ∧
    ∀ s : State,
      GoesTo (.skp x) s (if s.keys.getLsbD ((s.readV x).toNat % 16) = true then s.pc + 2 else s.pc) ∧
      GoesTo (.sknp x) s (if s.keys.getLsbD ((s.readV x).toNat % 16) = false then s.pc + 2 else s.pc)

/-! ## ALU -/

/-- LD Vx, nn and ADD Vx, nn: V[x] becomes nn, or (V[x] + nn) mod 256; no flag and nothing else changes, and
with x = 15 VF is the destination (42_alu.md R190, R191). -/
def Obligations.LoadAndAddImmediate : Prop :=
  ∀ (x : Reg) (nn : Byte),
    decodeWord (wXNN 0x6000 x nn) = .ok (.ldImm x nn) ∧ decodeWord (wXNN 0x7000 x nn) = .ok (.addImm x nn) ∧
    ∀ s : State, SetsOnly (.ldImm x nn) s x nn ∧
      ∃ b : Byte, b.toNat = ((s.readV x).toNat + nn.toNat) % 256 ∧ SetsOnly (.addImm x nn) s x b

/-- Copy, OR, AND, XOR of two registers into V[x]; VF is not changed unless it is the destination, and nothing
else is (42_alu.md R195 to R198; VF unchanged is the spec's decision D9, the low nibbles its decision D24). -/
def Obligations.CopyAndLogicKeepVf : Prop :=
  ∀ x y : Reg,
    decodeWord (wXYN 0x8000 x y 0x0) = .ok (.ldReg x y) ∧
    decodeWord (wXYN 0x8000 x y 0x1) = .ok (.orReg x y) ∧ decodeWord (wXYN 0x8000 x y 0x2) = .ok (.andReg x y) ∧
    decodeWord (wXYN 0x8000 x y 0x3) = .ok (.xorReg x y) ∧
    ∀ s : State,
      SetsOnly (.ldReg x y) s x (s.readV y) ∧
      SetsOnly (.orReg x y) s x (s.readV x ||| s.readV y) ∧
      SetsOnly (.andReg x y) s x (s.readV x &&& s.readV y) ∧
      SetsOnly (.xorReg x y) s x (s.readV x ^^^ s.readV y)

/-- ADD, SUB, SUBN of two registers: the result modulo 256 in V[x], and VF = 1 iff the sum exceeds 255, or iff
the minuend is at least the subtrahend (42_alu.md R200, R201, R203, R220). With x = 15 VF holds the flag
and the result is lost (the spec's decision D8). -/
def Obligations.AddAndSubtractSetTheFlag : Prop :=
  ∀ x y : Reg,
    decodeWord (wXYN 0x8000 x y 0x4) = .ok (.addReg x y) ∧ decodeWord (wXYN 0x8000 x y 0x5) = .ok (.subReg x y) ∧
    decodeWord (wXYN 0x8000 x y 0x7) = .ok (.subnReg x y) ∧
    ∀ s : State, ∃ sum dxy dyx : Byte,
      sum.toNat = ((s.readV x).toNat + (s.readV y).toNat) % 256 ∧
      (dxy.toNat : Int) = ((s.readV x).toNat - (s.readV y).toNat : Int) % 256 ∧
      (dyx.toNat : Int) = ((s.readV y).toNat - (s.readV x).toNat : Int) % 256 ∧
      SetsWithFlag (exec (.addReg x y) s) s x sum
        (if (s.readV x).toNat + (s.readV y).toNat > 255 then 1 else 0) ∧
      SetsWithFlag (exec (.subReg x y) s) s x dxy (if (s.readV x).toNat ≥ (s.readV y).toNat then 1 else 0) ∧
      SetsWithFlag (exec (.subnReg x y) s) s x dyx (if (s.readV y).toNat ≥ (s.readV x).toNat then 1 else 0)

/-- SHR and SHL by one: half of the source, or its double modulo 256, in V[x], and VF = the bit shifted out. The
source is V[x] on this hardware, V[y] under SHIFT_SOURCE = vy (42_alu.md R202, R204; the source and the
case x = 15 are the spec's decisions D7, D8). -/
def Obligations.ShiftsMoveOneBitIntoVf : Prop :=
  ∀ x y : Reg,
    decodeWord (wXYN 0x8000 x y 0x6) = .ok (.shr x y) ∧ decodeWord (wXYN 0x8000 x y 0xE) = .ok (.shl x y) ∧
    (∀ s : State, exec (.shr x y) s = execShrWith .vx x y s ∧ exec (.shl x y) s = execShlWith .vx x y s) ∧
    ∀ (source : ShiftSource) (s : State), ∃ b half dbl : Byte,
      b = s.readV (if source = .vx then x else y) ∧
      half.toNat = b.toNat / 2 ∧ dbl.toNat = (b.toNat * 2) % 256 ∧
      SetsWithFlag (execShrWith source x y s) s x half (BitVec.ofNat 8 (b.toNat % 2)) ∧
      SetsWithFlag (execShlWith source x y s) s x dbl (BitVec.ofNat 8 (b.toNat / 128))

/-- RND Vx, nn: V[x] is one draw of the `rand` input ANDed with nn, one draw is taken, and nothing else changes;
bits where nn is 0 are 0 (42_alu.md R210, R228). The draw is the free value Config.randByte at the model's
own counter (DESIGN CHOICE, log 2): the statement holds of every byte. -/
def Obligations.RandomByteIsMasked : Prop :=
  ∀ (x : Reg) (nn : Byte),
    decodeWord (wXNN 0xC000 x nn) = .ok (.rnd x nn) ∧
    ∀ s : State, ∃ t, exec (.rnd x nn) s = .next t ∧ t = { s with v := t.v, draws := s.draws + 1 } ∧
      t.readV x = Config.randByte s.draws &&& nn ∧
      (∀ b, nn.getLsbD b = false → (t.readV x).getLsbD b = false) ∧
      ∀ q, q ≠ x → t.readV q = s.readV q

/-! ## Index register and memory -/

/-- LD I, nnn: I receives nnn, zero-extended; nothing else changes and no memory is touched
(43_index_memory.md R230). -/
def Obligations.LoadIndexImmediate : Prop :=
  ∀ nnn : Addr12, decodeWord (wNNN 0xA000 nnn) = .ok (.ldI nnn) ∧
    ∃ a : Word, a.toNat = nnn.toNat ∧ ∀ s : State, exec (.ldI nnn) s = .next { s with i := a }

/-- LD F, Vx: I receives five times the low nibble of V[x], the address of the digit's glyph; nothing else
changes and no memory is touched (43_index_memory.md R232; the code 0x29 is the spec's decision D24). -/
def Obligations.GlyphAddressIsFiveTimesTheDigit : Prop :=
  ∀ x : Reg, decodeWord (wX 0xF029 x) = .ok (.ldF x) ∧
    ∀ s : State, ∃ a : Word, a.toNat = (s.readV x).toNat % 16 * 5 ∧
      exec (.ldF x) s = .next { s with i := a }

/-- ADD I, Vx: I becomes (I + V[x]) mod 2^16, with no flag and no bound check; nothing else changes
(43_index_memory.md R231; no flag and the wrap are the spec's decision D11). -/
def Obligations.AddToIndexWraps : Prop :=
  ∀ x : Reg, decodeWord (wX 0xF01E x) = .ok (.addI x) ∧
    ∀ s : State, ∃ a : Word, a.toNat = (s.i.toNat + (s.readV x).toNat) % 65536 ∧
      exec (.addI x) s = .next { s with i := a }

/-- LD B, Vx: with I + 2 in range the three decimal digits of V[x] are stored at I, I+1, I+2, hundreds first;
every other byte, I, the registers and all other state are unchanged (43_index_memory.md R233; the digit
order is the spec's decision D25). -/
def Obligations.BcdStoresThreeDigits : Prop :=
  ∀ x : Reg, decodeWord (wX 0xF033 x) = .ok (.ldB x) ∧
    ∀ s : State, Memory.wf s.mem → s.atI + 2 ≤ 0xFFF →
      ∃ t, exec (.ldB x) s = .next t ∧ t = { s with mem := t.mem } ∧ Memory.wf t.mem ∧
        (t.readMem s.atI).toNat = (s.readV x).toNat / 100 ∧
        (t.readMem (s.atI + 1)).toNat = (s.readV x).toNat / 10 % 10 ∧
        (t.readMem (s.atI + 2)).toNat = (s.readV x).toNat % 10 ∧
        ∀ a, ¬ (s.atI ≤ a ∧ a < s.atI + 3) → t.readMem a = s.readMem a

/-- LD [I], Vx: with I + x in range V[0] .. V[x] are stored at I .. I+x; every other byte, I, the registers and
all other state are unchanged (43_index_memory.md R234; I unchanged is the spec's decision D10). -/
def Obligations.StoreWritesRegistersUpToX : Prop :=
  ∀ x : Reg, decodeWord (wX 0xF055 x) = .ok (.ldMemVx x) ∧
    ∀ s : State, Memory.wf s.mem → s.atI + x.toNat ≤ 0xFFF →
      ∃ t, exec (.ldMemVx x) s = .next t ∧ t = { s with mem := t.mem } ∧ Memory.wf t.mem ∧
        (∀ q : Reg, q.toNat ≤ x.toNat → t.readMem (s.atI + q.toNat) = s.readV q) ∧
        ∀ a, ¬ (s.atI ≤ a ∧ a < s.atI + (x.toNat + 1)) → t.readMem a = s.readMem a

/-- LD Vx, [I]: with I + x in range V[0] .. V[x] receive the bytes at I .. I+x; the registers above x, I, memory
and all other state are unchanged (43_index_memory.md R235; I unchanged is the spec's decision D10). -/
def Obligations.LoadReadsRegistersUpToX : Prop :=
  ∀ x : Reg, decodeWord (wX 0xF065 x) = .ok (.ldVxMem x) ∧
    ∀ s : State, s.atI + x.toNat ≤ 0xFFF →
      ∃ t, exec (.ldVxMem x) s = .next t ∧ t = { s with v := t.v } ∧
        (∀ q : Reg, q.toNat ≤ x.toNat → t.readV q = s.readMem (s.atI + q.toNat)) ∧
        ∀ q : Reg, x.toNat < q.toNat → t.readV q = s.readV q

/-- An instruction that would touch an address above 0xFFF raises OutOfBoundsAccess with the lowest such address
and does nothing else: no byte, no register, no pixel, no VF is written; the rows of a sprite that would be
clipped are checked as well. DRW with n = 0 touches nothing (20_memory.md R63, R77, 44_display.md R261; all
or nothing and the clipped rows are the spec's decisions D5, D14, D15). -/
def Obligations.OutOfRangeAccessDoesNothingElse : Prop :=
  ∀ (i : Instr) (s : State) (bad : Nat), firstBadAddress i s = some bad → Raises i s .outOfBoundsAccess bad

/-- Memories in canonical form that read the same everywhere are equal lists. (The representation is the
model's own, log 16; MEM is the byte array of 10_state.md R46.) -/
def Obligations.EqualMemoriesAreEqualData : Prop :=
  ∀ m m' : Memory, Memory.wf m → Memory.wf m' → (∀ a, Memory.read m a = Memory.read m' a) → m = m'

/-! ## Display -/

/-- CLS: every pixel is 0 afterwards, and nothing but the framebuffer changes (44_display.md R260). -/
def Obligations.ClsClearsEveryPixel : Prop :=
  decodeWord 0x00E0 = .ok .cls ∧
  ∀ s : State, ∃ t, exec .cls s = .next t ∧ t = { s with fb := t.fb } ∧
    ∀ py px, FrameBuffer.pixel t.fb py px = false

/-- DRW, pixel by pixel: with the sprite's bytes in range, every on-screen pixel becomes itself XOR the sprite's
bit there (so what falls off the right or bottom edge is not drawn), VF is 1 iff some pixel that was 1 had a
sprite bit of 1, and no other register and no other state changes (44_display.md R261 to R265; bottom
clipping, n = 0 and the bit order are the spec's decisions D13, D15, D16). -/
def Obligations.DrawXorsTheSpriteIntoThePixels : Prop :=
  ∀ (x y : Reg) (n : Nib), decodeWord (wXYN 0xD000 x y n) = .ok (.drw x y n) ∧
    ∀ s : State, SpriteInRange s n →
      ∃ t, exec (.drw x y n) s = .next t ∧ t = { s with v := t.v, fb := t.fb } ∧
        (∀ py px, py < 32 → px < 64 → FrameBuffer.pixel t.fb py px =
          Bool.xor (FrameBuffer.pixel s.fb py px) (spriteBit s x y n py px)) ∧
        (t.readV 15 = 1 ∨ t.readV 15 = 0) ∧
        (t.readV 15 = 1 ↔ ∃ py px, py < 32 ∧ px < 64 ∧ FrameBuffer.pixel s.fb py px = true ∧
          spriteBit s x y n py px = true) ∧
        ∀ q, q ≠ 15 → t.readV q = s.readV q

/-- Double draw: drawing the same sprite at the same position again, with I, the sprite's bytes and the
framebuffer as the first draw left them, brings the framebuffer back to what it was before the first draw,
and the second draw sets VF = 1 iff the first turned some pixel from 0 to 1. A draw whose on-screen bits
are all 0 changes no pixel and sets VF = 0 (44_display.md R266). -/
def Obligations.DrawingTwiceRestoresTheScreen : Prop :=
  (∀ (s t u : State) (x y x' y' : Reg) (n : Nib), SpriteInRange s n → exec (.drw x y n) s = .next t →
    u.fb = t.fb → u.i = s.i → (∀ a, u.readMem a = s.readMem a) →
    u.readV x' = s.readV x → u.readV y' = s.readV y →
    ∃ w, exec (.drw x' y' n) u = .next w ∧ w.fb = s.fb ∧
      (w.readV 15 = 1 ↔ ∃ py px, py < 32 ∧ px < 64 ∧ FrameBuffer.pixel s.fb py px = false ∧
        FrameBuffer.pixel t.fb py px = true)) ∧
  ∀ (s : State) (x y : Reg) (n : Nib), SpriteInRange s n →
    (∀ py px, py < 32 → px < 64 → spriteBit s x y n py px = false) →
    ∃ t, exec (.drw x y n) s = .next t ∧ t.fb = s.fb ∧ t.readV 15 = 0

/-! ## Keys and timers -/

/-- A scheduled input is the next step: it is used up and handed to `State.takeInput`, a reset in every session,
any other input in a session that has not been shut down. That a reset is taken after a shutdown, against
40_engine.md R142's 'no step of any kind', is the model's reading of R120 and R142 together (DEDUCED, log 10),
and that a shutdown is taken with no session open is its choice (log 23). In FAULTED and with no session open,
where 40_engine.md R120, 60_exceptions.md R305 and 70_reset_and_hazards.md R341 enable no key event and no tick,
that such an input is used up all the same, and changes nothing else, is the model's choice (log 8); so is that
the schedule is plain data of the state (log 1; R120 leaves the order open). -/
def Obligations.ScheduledInputIsTaken : Prop :=
  ∀ (s : State) (e : Event) (rest : List Event), InputTurn s e rest → e ≠ .instruction →
    (s.session ≠ .ended ∨ ∃ image, e = .reset image) →
    step s = .next (State.takeInput { s with schedule := rest } e)

/-- LD Vx, DT; LD DT, Vx; LD ST, Vx: V[x] receives DT, DT or ST receives V[x], and nothing else changes
(45_timers_keys.md R282, R285, R286). -/
def Obligations.TimerTransfers : Prop :=
  ∀ x : Reg,
    decodeWord (wX 0xF007 x) = .ok (.ldVxDt x) ∧ decodeWord (wX 0xF015 x) = .ok (.ldDtVx x) ∧
    decodeWord (wX 0xF018 x) = .ok (.ldStVx x) ∧
    ∀ s : State,
      SetsOnly (.ldVxDt x) s x s.dt ∧
      exec (.ldDtVx x) s = .next { s with dt := s.readV x } ∧
      exec (.ldStVx x) s = .next { s with st := s.readV x }

/-- LD Vx, K writes no register and ends in MODE = AWAITING_KEY(x), nothing else changed; and no other
instruction suspends (40_engine.md R126, 45_timers_keys.md R284). -/
def Obligations.OnlyTheKeyWaitSuspends : Prop :=
  (∀ x : Reg, decodeWord (wX 0xF00A x) = .ok (.ldVxK x) ∧
    ∀ s : State, exec (.ldVxK x) s = .next { s with mode := .awaitingKey x }) ∧
  ∀ (i : Instr) (s t : State) (r : Reg), exec i s = .next t → t.mode = .awaitingKey r →
    s.mode = .running → i = .ldVxK r

/-- A key event in RUNNING sets or clears bit k of KEYS and changes nothing else (40_engine.md R133). -/
def Obligations.KeyEventInRunningChangesOneKeyBit : Prop :=
  ∀ (s : State) (k : Nib) (dir : KeyDir) (rest : List Event), InputTurn s (.key k dir) rest →
    s.session = .live → s.mode = .running →
    ∃ t, step s = .next t ∧ t = { s with schedule := rest, keys := t.keys } ∧
      t.keys.getLsbD k.toNat = decide (dir = .down) ∧
      ∀ j, j ≠ k.toNat → t.keys.getLsbD j = s.keys.getLsbD j

/-- The key wait: in AWAITING_KEY(r) no instruction step is enabled (the model stops by name, log 7); a key-up
event clears its bit and the wait goes on; a tick takes one from each nonzero timer and the wait goes on; a key-down event for k sets
its bit, writes k to V[r] and returns to RUNNING, with PC and all other state unchanged, also when that
bit was set already (40_engine.md R134, R135; the repeated down event is the spec's decision D19). -/
def Obligations.OnlyAKeyDownEndsTheWait : Prop :=
  ∀ (s : State) (r : Reg) (rest : List Event), s.session = .live → s.mode = .awaitingKey r →
    ((s.schedule = [] ∨ InputTurn s .instruction rest) → step s = .fault (.awaitingKey r)) ∧
    (InputTurn s .tick rest → ∃ t, step s = .next t ∧ t = { s with schedule := rest, dt := t.dt, st := t.st } ∧
      t.dt.toNat = s.dt.toNat - 1 ∧ t.st.toNat = s.st.toNat - 1) ∧
    ∀ k : Nib,
      (InputTurn s (.key k .up) rest → ∃ t, step s = .next t ∧ t = { s with schedule := rest, keys := t.keys } ∧
        t.keys.getLsbD k.toNat = false ∧ ∀ j, j ≠ k.toNat → t.keys.getLsbD j = s.keys.getLsbD j) ∧
      (InputTurn s (.key k .down) rest → ∃ t, step s = .next t ∧
        t = { s with schedule := rest, keys := t.keys, v := t.v, mode := .running } ∧
        (t.readV r).toNat = k.toNat ∧ (∀ q, q ≠ r → t.readV q = s.readV q) ∧
        t.keys.getLsbD k.toNat = true ∧ ∀ j, j ≠ k.toNat → t.keys.getLsbD j = s.keys.getLsbD j)

/-- A tick in RUNNING or AWAITING_KEY takes one from each timer that is not zero, each from its own value, and
changes nothing else (40_engine.md R136). -/
def Obligations.TickDecrementsEachNonzeroTimer : Prop :=
  ∀ s : State, s.session = .live → (s.mode = .running ∨ ∃ r, s.mode = .awaitingKey r) →
    ∃ t, State.takeInput s .tick = t ∧ t = { s with dt := t.dt, st := t.st } ∧
      t.dt.toNat = (if s.dt.toNat > 0 then s.dt.toNat - 1 else 0) ∧
      t.st.toNat = (if s.st.toNat > 0 then s.st.toNat - 1 else 0)

/-- Timer monotonicity: after n ticks in a row a timer that stood at v stands at v − n, and at 0 from the v-th
tick on; nothing else changes (45_timers_keys.md R287). -/
def Obligations.TimersReachZeroAfterTheirCountOfTicks : Prop :=
  ∀ (n : Nat) (s : State) (rest : List Event), s.schedule = List.replicate n .tick ++ rest →
    s.session = .live → (s.mode = .running ∨ ∃ r, s.mode = .awaitingKey r) →
    ∃ t, Host.Core.run core n s = .next t ∧ t = { s with schedule := rest, dt := t.dt, st := t.st } ∧
      t.dt.toNat = s.dt.toNat - n ∧ t.st.toNat = s.st.toNat - n

/-! ## Faults -/

/-- Faults are precise: when an instruction that starts in RUNNING ends in FAULTED(f), it has changed MODE
alone, and f holds its own address PC − 2 and IR (40_engine.md R131, R132; all or nothing is the spec's
decision D5). -/
def Obligations.FaultsArePrecise : Prop :=
  ∀ (i : Instr) (s t : State) (f : FaultRecord), s.mode = .running → exec i s = .next t →
    t.mode = .faulted f → t = { s with mode := .faulted f } ∧ f.pc = s.pc - 2 ∧ f.word = s.ir

/-- The faults of the execute part are exactly those listed: RET on the empty stack, CALL at depth 12, and a
memory instruction with an address out of range; every other instruction stays in RUNNING or suspends
(60_exceptions.md R300, R303). -/
def Obligations.OnlyListedInstructionsFault : Prop :=
  ∀ (i : Instr) (s t : State), s.mode = .running → exec i s = .next t →
    ((∃ f, t.mode = .faulted f) ↔
      (i = .ret ∧ s.sp.val = 0) ∨ ((∃ nnn, i = .call nnn) ∧ s.sp.val = 12) ∨
        (∃ bad, firstBadAddress i s = some bad)) ∧
    ∀ f, t.mode = .faulted f →
      (i = .ret ∧ f.kind = .stackUnderflow ∧ f.addr = 0) ∨
      ((∃ nnn, i = .call nnn) ∧ f.kind = .stackOverflow ∧ f.addr = 0) ∨
      (f.kind = .outOfBoundsAccess ∧ firstBadAddress i s = some f.addr.toNat)

/-- FAULTED is left only by a reset or ended by shutdown: no instruction step is enabled (the model stops by
name, log 6), and a key event or a tick changes nothing but the model's own schedule (60_exceptions.md
R305; freezing keys and timers is the spec's decision D6, consuming the input is log 8). -/
def Obligations.FaultedCoreIsFrozen : Prop :=
  ∀ (s : State) (f : FaultRecord) (rest : List Event), s.session = .live → s.mode = .faulted f →
    ((s.schedule = [] ∨ InputTurn s .instruction rest) → step s = .fault (.coreFaulted f)) ∧
    (InputTurn s .tick rest → step s = .next { s with schedule := rest }) ∧
    ∀ k dir, InputTurn s (.key k dir) rest → step s = .next { s with schedule := rest }

/-! ## Reset and shutdown -/

/-- The state right after reset holds the values of 10_state.md R51 for the empty image: registers, I, timers
0, PC = 0x200, RUNNING (the source's), and IR, SP, STACK, KEYS, FB, memory outside the font 0 (the spec's
decision D22); the font is at 0x000..0x04F (D23). -/
def Obligations.ResetStateHoldsTheResetValues : Prop :=
  (∀ q, State.reset.readV q = 0) ∧ State.reset.pc = 0x200 ∧ State.reset.i = 0 ∧ State.reset.dt = 0 ∧
  State.reset.st = 0 ∧ State.reset.ir = 0 ∧ State.reset.sp.val = 0 ∧ (∀ w ∈ State.reset.stack.toList, w = 0) ∧
  State.reset.keys = 0 ∧ State.reset.mode = .running ∧ State.reset.session = .live ∧
  (∀ py px, FrameBuffer.pixel State.reset.fb py px = false) ∧
  ∀ a, State.reset.readMem a = if a < 0x50 then hw.font.getD a 0 else 0

/-- reset(image) with at most 0xE00 bytes, at any time, in any MODE and in any session, leaves exactly the reset
state for the image. That this holds after a shutdown too, against 40_engine.md R142's 'no step of any kind', is
the model's reading of R120, R340 and R142 together (DEDUCED, log 10). The reset state is the fresh state of
40_engine.md R148, with the image at 0x200, the font below 0x050 and 0x00 elsewhere (70_reset_and_hazards.md
R340, 10_state.md R51; the zeros the source does not state are the spec's decision D22; the schedule and the draw
count are the model's own, logs 1 and 2). -/
def Obligations.ResetStartsAFreshSession : Prop :=
  ∀ (s : State) (image : List Byte) (rest : List Event), InputTurn s (.reset image) rest →
    image.length ≤ 0xE00 →
    ∃ t, step s = .next t ∧ fresh t image ∧ t.schedule = rest ∧ t.draws = s.draws ∧
      (∀ q, t.readV q = 0) ∧ t.pc = 0x200 ∧ t.i = 0 ∧ t.mode = .running ∧ t.session = .live ∧
      Memory.wf t.mem ∧
      ∀ a, t.readMem a =
        if 0x200 ≤ a ∧ a < 0x200 + image.length then image.getD (a - 0x200) 0
        else if a < 0x50 then hw.font.getD a 0 else 0

/-- An image longer than 0xE00 bytes is refused: no session is open (one that a shutdown ended stays ended), the
core's state is not touched, and no instruction step is taken until a reset with a legal image; a key event or a
tick then changes nothing but the model's own schedule (70_reset_and_hazards.md R341, the spec's decision D29;
logs 8 and 9). -/
def Obligations.OversizeImageOpensNoSession : Prop :=
  (∀ (s : State) (image : List Byte) (rest : List Event), InputTurn s (.reset image) rest →
    s.session ≠ .ended → 0xE00 < image.length →
    step s = .next { s with schedule := rest, session := .noSession }) ∧
  (∀ (s : State) (image : List Byte) (rest : List Event), InputTurn s (.reset image) rest →
    s.session = .ended → 0xE00 < image.length → step s = .next { s with schedule := rest }) ∧
  ∀ (s : State) (rest : List Event), s.session = .noSession →
    ((s.schedule = [] ∨ InputTurn s .instruction rest) → step s = .fault .noSession) ∧
    (InputTurn s .tick rest → step s = .next { s with schedule := rest }) ∧
    (∀ k dir, InputTurn s (.key k dir) rest → step s = .next { s with schedule := rest }) ∧
    ∀ image, InputTurn s (.reset image) rest → image.length ≤ 0xE00 →
      ∃ t, step s = .next t ∧ fresh t image ∧ t.session = .live

/-- Shutdown is possible in any MODE and ends the session: the core's state is discarded, so that nothing of it
is left in the state after (two states that are shut down with the same schedule and draw count are equal then);
after it no output shows anything and no step has a next state but a reset, which with a legal image starts a new
session (40_engine.md R142, R120, 70_reset_and_hazards.md R340, 93 K24; how R142 and R120 are read together, and
that the discarded fields hold the reset values, is log 10; that a shutdown is taken after a refused reset too,
with no session open, is the model's choice, log 23). -/
def Obligations.OnlyAResetFollowsAShutdown : Prop :=
  (∀ (s : State) (rest : List Event), InputTurn s .shutdown rest → s.session ≠ .ended →
    step s = .next { State.reset with session := .ended, schedule := rest, draws := s.draws }) ∧
  ∀ s : State, s.session = .ended →
    ((∀ image rest, ¬ InputTurn s (.reset image) rest) → step s = .fault .sessionEnded) ∧
    (∀ image rest, InputTurn s (.reset image) rest → image.length ≤ 0xE00 →
      ∃ t, step s = .next t ∧ fresh t image ∧ t.session = .live) ∧
    State.fbOut s = none ∧ State.view s = none ∧ State.faultOut s = none ∧ State.soundOut s = none ∧
    State.unsupportedOut s = none

/-! ## Whole-machine rules -/

/-- Who may write what (10_state.md R34, R37 to R44, R47, R48; 40_engine.md R129): in the execute part no
instruction writes KEYS, IR or the session; DT, ST, I, SP, STACK, memory, the framebuffer, PC and the registers
are written only by the instructions named for them; MODE only by LD Vx, K and by the faults of RET, CALL and
the memory instructions. Of the model's own fields the schedule (log 1) and the reports (log 11) are not
written, and the draw count (log 2) only by RND. -/
def Obligations.EachPieceOfStateHasItsWriters : Prop :=
  ∀ (i : Instr) (s t : State), exec i s = .next t →
    t.keys = s.keys ∧ t.ir = s.ir ∧ t.session = s.session ∧ t.schedule = s.schedule ∧ t.reports = s.reports ∧
    (t.dt = s.dt ∨ ∃ x, i = .ldDtVx x) ∧
    (t.st = s.st ∨ ∃ x, i = .ldStVx x) ∧
    (t.i = s.i ∨ (∃ nnn, i = .ldI nnn) ∨ (∃ x, i = .addI x) ∨ ∃ x, i = .ldF x) ∧
    (t.sp = s.sp ∨ i = .ret ∨ ∃ nnn, i = .call nnn) ∧
    (t.stack = s.stack ∨ ∃ nnn, i = .call nnn) ∧
    (t.mem = s.mem ∨ (∃ x, i = .ldB x) ∨ ∃ x, i = .ldMemVx x) ∧
    (t.fb = s.fb ∨ i = .cls ∨ ∃ x y n, i = .drw x y n) ∧
    (t.draws = s.draws ∨ ∃ x nn, i = .rnd x nn) ∧
    (t.pc = s.pc ∨ writesPc i = true) ∧
    (t.mode = s.mode ∨ (∃ x, i = .ldVxK x ∧ t.mode = .awaitingKey x) ∨
      ∃ f, t.mode = .faulted f ∧ ((i = .ret ∧ s.sp.val = 0) ∨ ((∃ nnn, i = .call nnn) ∧ s.sp.val = 12) ∨
        ∃ bad, firstBadAddress i s = some bad)) ∧
    ∀ q, t.readV q = s.readV q ∨ isDest i q = true ∨ (q = 15 ∧ writesFlag i = true)

/-- The delay timer: of the instructions only LD DT, Vx writes it, and only LD Vx, DT reads it; of the inputs only
a tick, which never raises it, and a reset write it, and a shutdown discards it with the rest of the state
(10_state.md R39, 40_engine.md R136, R142; what the discarded field holds is log 10). -/
def Obligations.DelayTimerHasItsReadersAndWriters : Prop :=
  (∀ (i : Instr) (s t : State), exec i s = .next t → t.dt = s.dt ∨ ∃ x, i = .ldDtVx x) ∧
  (∀ (i : Instr) (s t : State) (d : Byte), (∀ x, i ≠ .ldVxDt x) → exec i s = .next t →
    exec i { s with dt := d } = .next { t with dt := (match i with | .ldDtVx _ => t.dt | _ => d) }) ∧
  (∀ (s : State) (e : Event),
    (State.takeInput s e).dt = s.dt ∨ e = .tick ∨ (∃ image, e = .reset image) ∨ e = .shutdown) ∧
  ∀ s : State, (State.takeInput s .tick).dt.toNat ≤ s.dt.toNat

/-- The key mask: no instruction writes it, and only SKP and SKNP read it (10_state.md R43); of the inputs only a
key event and a reset write it (R43, R51), and a shutdown discards it with the rest of the state (40_engine.md
R142; what the discarded field holds is log 10). A key event that is taken writes its own bit alone: set for
down, clear for up, in RUNNING and while waiting (R133, R134). -/
def Obligations.KeyMaskHasItsReadersAndWriters : Prop :=
  (∀ (i : Instr) (s t : State), exec i s = .next t → t.keys = s.keys) ∧
  (∀ (i : Instr) (s t : State) (k : BitVec 16), (∀ x, i ≠ .skp x ∧ i ≠ .sknp x) → exec i s = .next t →
    exec i { s with keys := k } = .next { t with keys := k }) ∧
  (∀ (s : State) (e : Event),
    (State.takeInput s e).keys = s.keys ∨ (∃ k dir, e = .key k dir) ∨ (∃ image, e = .reset image) ∨
      e = .shutdown) ∧
  ∀ (s : State) (k : Nib) (dir : KeyDir), s.session = .live → noFault s →
    (State.takeInput s (.key k dir)).keys.getLsbD k.toNat = decide (dir = .down) ∧
    ∀ j, j ≠ k.toNat → (State.takeInput s (.key k dir)).keys.getLsbD j = s.keys.getLsbD j

/-- VF as the flag register (10_state.md R31, 42_alu.md R221, 44_display.md R264): an instruction that does not
write VF as a side effect and does not name it as destination leaves it alone; one that writes it and does
not fault leaves 0 or 1 there. (That OR, AND, XOR are not among the writers is the spec's decision D9.) -/
def Obligations.OnlyFlagWritersTouchVf : Prop :=
  ∀ (i : Instr) (s t : State), exec i s = .next t →
    (writesFlag i = false → isDest i 15 = false → t.readV 15 = s.readV 15) ∧
    (writesFlag i = true → s.mode = .running → noFault t → t.readV 15 = 0 ∨ t.readV 15 = 1)

/-- Purity (40_engine.md R144, 10_state.md R40): what an instruction does does not depend on ST, on what is
scheduled, on the reports or the session, nor, unless it is RND, on the draws: changing them changes nothing
else in the result. (The schedule, the reports and the draw count are the model's own, logs 1, 2, 11.) -/
def Obligations.InstructionsReadNoHiddenInput : Prop :=
  ∀ (i : Instr) (s t : State) (st : Byte) (sch : List Event) (rep : List SoftReport) (ses : Session) (d : Nat),
    ((∃ x nn, i = .rnd x nn) → d = s.draws) → exec i s = .next t →
    exec i { s with st := st, schedule := sch, reports := rep, session := ses, draws := d } =
      .next { t with
        st := (match i with | .ldStVx _ => t.st | _ => st)
        schedule := sch
        reports := rep
        session := ses
        draws := (match i with | .rnd _ _ => t.draws | _ => d) }

/-- The invariant of reachable states holds at reset (the reset state is the model's reading of R51). -/
def Obligations.InvariantHoldsAtReset : Prop := Inv State.reset

/-- Every step keeps the invariant of reachable states (10_state.md R34, R45, R53): memory in canonical form
inside the address space; PC at most 0x10FE; every stack entry, stale ones included, even and at most
0x1000; AWAITING_KEY(r) only with FX0A for r in IR; FAULTED only with a record that fits the state. -/
def Obligations.EveryStepKeepsTheInvariant : Prop :=
  ∀ s t : State, Inv s → step s = .next t → Inv t

/-! ## Progress under the host's duties, and the framebuffer export -/

/-- The timers run out: in a run with an open session, no fault and no reset, whose host keeps the tick duty, DT is 0
from some step on when no LD DT, Vx is fetched, and ST when no LD ST, Vx is (45_timers_keys.md R287, 40_engine.md
R138, R145, R146, R148). -/
def Obligations.TimersRunOutUnderTheTickDuty : Prop :=
  ∀ (platform : Nat → Event) (run : Nat → State), IsRun platform run → hostTicks platform →
    (∀ n, (run n).session = .live ∧ noFault (run n)) → (∀ n image, platform n ≠ .reset image) →
    ((∀ n x, platform n = .instruction → decodeWord (run n).wordAtPc ≠ .ok (.ldDtVx x)) →
      ∃ n, ∀ m, n ≤ m → (run m).dt = 0) ∧
    ((∀ n x, platform n = .instruction → decodeWord (run n).wordAtPc ≠ .ok (.ldStVx x)) →
      ∃ n, ∀ m, n ≤ m → (run m).st = 0)

/-- The key wait ends: when step n of a run with no reset and no shutdown is an FX0A suspension into V[r], and the
host delivers key k after it, the core stays in AWAITING_KEY(r) up to a later step m that is a key-down event,
of some key j, and after that step it is RUNNING with j in V[r] and PC where the suspension left it
(40_engine.md R134, R135, R146, R148, 45_timers_keys.md R288). -/
def Obligations.KeyWaitEndsUnderTheKeyDuty : Prop :=
  ∀ (platform : Nat → Event) (run : Nat → State) (n : Nat) (r : Reg) (k : Nib), IsRun platform run →
    (∀ l, platform l ≠ .shutdown ∧ ∀ image, platform l ≠ .reset image) → suspendsAt platform run n r →
    hostKeys k platform run (fun l => l = n) →
    ∃ (m : Nat) (j : Nib), n < m ∧ (∀ l, n < l → l ≤ m → (run l).mode = .awaitingKey r) ∧
      platform m = .key j .down ∧ (run (m + 1)).mode = .running ∧ ((run (m + 1)).readV r).toNat = j.toNat ∧
      (run (m + 1)).pc = (run (n + 1)).pc

/-- The framebuffer export: until a shutdown the `fb` output is 2048 bytes, and the byte at index y * 64 + x is 1 or
0 as the pixel FB[y][x] is (40_engine.md R141, 10_state.md R47; the layout is the spec's decision D17). That the
output shows the kept framebuffer also after a refused reset, while no session is open, is the model's choice
(DESIGN CHOICE, log 9). -/
def Obligations.FramebufferExportShowsEachPixel : Prop :=
  ∀ s : State, s.session ≠ .ended → ∃ bytes, State.fbOut s = some bytes ∧ bytes.length = 2048 ∧
    ∀ y x, y < 32 → x < 64 →
      bytes[y * 64 + x]? = some (if FrameBuffer.pixel s.fb y x = true then 1 else 0)
end

