-- ==== Sys2Proof/Laws/Decode.lean ====
section
/-! SUPPORT. The fields of a packed word, and the bytes of a word (30_encoding.md R91, 20_memory.md R64). -/

namespace Sys2Proof

@[simp] theorem fieldC_packNNN (c : Nib) (a : Addr12) : fieldC (packNNN c a) = c := by
  apply BitVec.eq_of_getLsbD_eq
  intro i hi
  simp [fieldC, packNNN, hi, show 12 + i < 16 by omega, show ¬ 12 + i < 12 by omega]

@[simp] theorem fieldNNN_packNNN (c : Nib) (a : Addr12) : fieldNNN (packNNN c a) = a := by
  apply BitVec.eq_of_getLsbD_eq
  intro i hi
  simp [fieldNNN, packNNN, hi, show i < 16 by omega]

@[simp] theorem fieldC_packXNN (c : Nib) (x : Reg) (nn : Byte) : fieldC (packXNN c x nn) = c := by
  apply BitVec.eq_of_getLsbD_eq
  intro i hi
  simp [fieldC, packXNN, hi, show 12 + i < 16 by omega, show ¬ 12 + i < 12 by omega,
    BitVec.getLsbD_of_ge x (12 + i - 8) (by omega), BitVec.getLsbD_of_ge nn (12 + i) (by omega)]

@[simp] theorem fieldX_packXNN (c : Nib) (x : Reg) (nn : Byte) : fieldX (packXNN c x nn) = x := by
  apply BitVec.eq_of_getLsbD_eq
  intro i hi
  simp [fieldX, packXNN, hi, show 8 + i < 16 by omega, show 8 + i < 12 by omega]

@[simp] theorem fieldNN_packXNN (c : Nib) (x : Reg) (nn : Byte) : fieldNN (packXNN c x nn) = nn := by
  apply BitVec.eq_of_getLsbD_eq
  intro i hi
  simp [fieldNN, packXNN, hi, show i < 16 by omega, show i < 12 by omega]

@[simp] theorem fieldC_packXYN (c : Nib) (x y : Reg) (n : Nib) : fieldC (packXYN c x y n) = c := by
  apply BitVec.eq_of_getLsbD_eq
  intro i hi
  simp [fieldC, packXYN, hi, show 12 + i < 16 by omega, show ¬ 12 + i < 12 by omega,
    BitVec.getLsbD_of_ge x (12 + i - 8) (by omega), BitVec.getLsbD_of_ge y (12 + i - 4) (by omega),
    BitVec.getLsbD_of_ge n (12 + i) (by omega)]

@[simp] theorem fieldX_packXYN (c : Nib) (x y : Reg) (n : Nib) : fieldX (packXYN c x y n) = x := by
  apply BitVec.eq_of_getLsbD_eq
  intro i hi
  simp [fieldX, packXYN, hi, show 8 + i < 16 by omega, show 8 + i < 12 by omega,
    BitVec.getLsbD_of_ge y (8 + i - 4) (by omega), BitVec.getLsbD_of_ge n (8 + i) (by omega)]

@[simp] theorem fieldY_packXYN (c : Nib) (x y : Reg) (n : Nib) : fieldY (packXYN c x y n) = y := by
  apply BitVec.eq_of_getLsbD_eq
  intro i hi
  simp [fieldY, packXYN, hi, show 4 + i < 16 by omega, show 4 + i < 12 by omega, show 4 + i < 8 by omega]

@[simp] theorem fieldN_packXYN (c : Nib) (x y : Reg) (n : Nib) : fieldN (packXYN c x y n) = n := by
  apply BitVec.eq_of_getLsbD_eq
  intro i hi
  simp [fieldN, packXYN, hi, show i < 16 by omega, show i < 12 by omega, show i < 8 by omega]

/-- A word is its class and `nnn`. -/
theorem packNNN_fields (w : Word) : packNNN (fieldC w) (fieldNNN w) = w := by
  apply BitVec.eq_of_getLsbD_eq
  intro i hi
  by_cases h : i < 12
  · simp [fieldC, fieldNNN, packNNN, hi, h]
  · simp [fieldC, fieldNNN, packNNN, hi, h, show i - 12 < 4 by omega, show 12 + (i - 12) = i by omega]

/-- A word is its class, `x` and `nn`. -/
theorem packXNN_fields (w : Word) : packXNN (fieldC w) (fieldX w) (fieldNN w) = w := by
  apply BitVec.eq_of_getLsbD_eq
  intro i hi
  by_cases h : i < 12
  · by_cases h8 : i < 8
    · simp [fieldC, fieldX, fieldNN, packXNN, hi, h, h8]
    · simp [fieldC, fieldX, fieldNN, packXNN, hi, h, h8, show i - 8 < 4 by omega,
        show 8 + (i - 8) = i by omega]
  · simp [fieldC, fieldX, fieldNN, packXNN, hi, h, show ¬ i < 8 by omega, show ¬ i - 8 < 4 by omega,
      show i - 12 < 4 by omega, show 12 + (i - 12) = i by omega]

/-- A word is its class, `x`, `y` and `n`. -/
theorem packXYN_fields (w : Word) : packXYN (fieldC w) (fieldX w) (fieldY w) (fieldN w) = w := by
  apply BitVec.eq_of_getLsbD_eq
  intro i hi
  by_cases h : i < 12
  · by_cases h8 : i < 8
    · by_cases h4 : i < 4
      · simp [fieldC, fieldX, fieldY, fieldN, packXYN, hi, h, h8, h4]
      · simp [fieldC, fieldX, fieldY, fieldN, packXYN, hi, h, h8, h4, show i - 4 < 4 by omega,
          show 4 + (i - 4) = i by omega]
    · simp [fieldC, fieldX, fieldY, fieldN, packXYN, hi, h, h8, show i - 8 < 4 by omega,
        show ¬ i < 4 by omega, show ¬ i - 4 < 4 by omega, show 8 + (i - 8) = i by omega]
  · simp [fieldC, fieldX, fieldY, fieldN, packXYN, hi, h, show ¬ i < 8 by omega, show ¬ i < 4 by omega,
      show ¬ i - 8 < 4 by omega, show ¬ i - 4 < 4 by omega, show i - 12 < 4 by omega,
      show 12 + (i - 12) = i by omega]

/-- The two bytes of a word, read big-endian, are the word (20_memory.md R64). -/
@[simp] theorem wordOfBytes_hi_lo (w : Word) : wordOfBytes (hiByte w) (loByte w) = w := by
  apply BitVec.eq_of_getLsbD_eq
  intro i hi
  by_cases h8 : i < 8
  · simp [wordOfBytes, hiByte, loByte, hi, h8]
  · simp [wordOfBytes, hiByte, loByte, hi, h8, show i - 8 < 8 by omega, show 8 + (i - 8) = i by omega]

/-- The big-endian word as a number (20_memory.md R64). -/
theorem wordOfBytes_toNat (hi lo : Byte) : (wordOfBytes hi lo).toNat = hi.toNat * 256 + lo.toNat := by
  have h := lo.isLt
  have h' := hi.isLt
  have e : (hi.setWidth 16 <<< 8 : Word).toNat = hi.toNat <<< 8 := by
    simp only [BitVec.toNat_shiftLeft, BitVec.toNat_setWidth, Nat.shiftLeft_eq]; omega
  have e' : (lo.setWidth 16 : Word).toNat = lo.toNat := by simp only [BitVec.toNat_setWidth]; omega
  rw [wordOfBytes, BitVec.toNat_or, e, e', ← Nat.shiftLeft_add_eq_or_of_lt h, Nat.shiftLeft_eq]

@[simp] theorem hiByte_wordOfBytes (hi lo : Byte) : hiByte (wordOfBytes hi lo) = hi := by
  apply BitVec.eq_of_getLsbD_eq
  intro i h
  simp [hiByte, wordOfBytes, h, show 8 + i < 16 by omega]

@[simp] theorem loByte_wordOfBytes (hi lo : Byte) : loByte (wordOfBytes hi lo) = lo := by
  apply BitVec.eq_of_getLsbD_eq
  intro i h
  simp [loByte, wordOfBytes, h, show i < 16 by omega]

/-- Decoding two bytes and what follows them is decoding their big-endian word. -/
theorem decode_pair (hi lo : Byte) (rest : List Byte) :
    decode (hi :: lo :: rest) =
      match decodeWord (wordOfBytes hi lo) with
      | .ok i => .ok (i, rest)
      | .error e => .error e := rfl

/-- The decoder of this hardware ignores the low nibble of 5XYN and 9XYN (30_encoding.md R100). -/
theorem decodeWord_eq (w : Word) : decodeWord w = decodeWordWith false w := rfl

end Sys2Proof
end

