-- ==== Sys2Proof/Laws/Display.lean ====
section
/-! SUPPORT. What the framebuffer operations do to one pixel (44_display.md R260 to R264). -/

namespace Sys2Proof.Machine

/-- A cleared framebuffer reads as 0 everywhere. -/
@[simp] theorem pixel_clear (py px : Nat) : FrameBuffer.pixel FrameBuffer.clear py px = false := by
  unfold FrameBuffer.pixel FrameBuffer.clear; split <;> simp

/-- A flip inverts its own on-screen pixel and leaves every other alone. -/
theorem pixel_flip (fb : FrameBuffer) (py px qy qx : Nat) :
    FrameBuffer.pixel (FrameBuffer.flip fb py px) qy qx =
      if qy = py ∧ qx = px ∧ py < 32 ∧ px < 64 then !FrameBuffer.pixel fb qy qx
      else FrameBuffer.pixel fb qy qx := by
  unfold FrameBuffer.flip
  split
  · rename_i h
    by_cases hq : qy < 32 ∧ qx < 64
    · by_cases e1 : py = qy
      · subst e1
        by_cases e2 : px = qx
        · subst e2; simp [FrameBuffer.pixel, h]
        · have e2' : ¬ qx = px := fun e => e2 e.symm
          simp [FrameBuffer.pixel, hq, e2, e2']
      · have e1' : ¬ qy = py := fun e => e1 e.symm
        simp [FrameBuffer.pixel, hq, e1, e1']
    · have : ¬ (qy = py ∧ qx = px ∧ py < 32 ∧ px < 64) := by
        rintro ⟨rfl, rfl, h1, h2⟩; exact hq ⟨h1, h2⟩
      simp [FrameBuffer.pixel, hq, this]
  · rename_i h
    rw [if_neg (fun e => h ⟨e.2.2.1, e.2.2.2⟩)]

/-- Two framebuffers are equal when every pixel is. -/
theorem fb_ext {a b : FrameBuffer} (h : ∀ y x, y < 32 → x < 64 →
    FrameBuffer.pixel a y x = FrameBuffer.pixel b y x) : a = b := by
  apply Vector.ext
  intro y hy
  apply Vector.ext
  intro x hx
  simpa [FrameBuffer.pixel, hy, hx] using h y x hy hx

/-- Plotting one bit: the pixel becomes itself XOR the bit when the bit is on the screen (R262, R263). -/
theorem plot_fb (c : Canvas) (py px : Nat) (bit : Bool) (qy qx : Nat) :
    FrameBuffer.pixel (c.plot py px bit).fb qy qx =
      Bool.xor (FrameBuffer.pixel c.fb qy qx)
        (decide (qy = py ∧ qx = px ∧ py < 32 ∧ px < 64) && bit) := by
  unfold Canvas.plot
  change FrameBuffer.pixel (if px < 64 ∧ py < 32 ∧ bit = true then
    (⟨c.fb.flip py px, c.collision || c.fb.pixel py px⟩ : Canvas) else c).fb qy qx = _
  split
  · rename_i h
    rw [pixel_flip]
    by_cases e : qy = py ∧ qx = px ∧ py < 32 ∧ px < 64 <;> simp [e, h.2.2]
  · rename_i h
    cases bit
    · simp
    · have : ¬ (qy = py ∧ qx = px ∧ py < 32 ∧ px < 64) := fun e => h ⟨e.2.2.2, e.2.2.1, rfl⟩
      simp [this]

/-- Plotting one bit collides when it clears a pixel that was 1 (R264). -/
theorem plot_collision (c : Canvas) (py px : Nat) (bit : Bool) :
    (c.plot py px bit).collision = (c.collision || (FrameBuffer.pixel c.fb py px && bit)) := by
  unfold Canvas.plot
  change (if px < 64 ∧ py < 32 ∧ bit = true then
    (⟨c.fb.flip py px, c.collision || c.fb.pixel py px⟩ : Canvas) else c).collision = _
  split
  · rename_i h; simp [h.2.2]
  · rename_i h
    cases bit
    · simp
    · have : ¬ (py < 32 ∧ px < 64) := fun e => h ⟨e.2, e.1, rfl⟩
      simp [FrameBuffer.pixel, this]

/-- The bit that the first `cols` columns of a sprite row at (py, x0) have at (qy, qx); 0 elsewhere and off screen. -/
def spriteRowBit (row : Byte) (py x0 qy qx cols : Nat) : Bool :=
  decide (qy = py ∧ x0 ≤ qx ∧ qx < x0 + cols ∧ py < 32 ∧ qx < 64) && row.getLsbD (7 - (qx - x0))

/-- One sprite row XORs its on-screen bits into the framebuffer (44_display.md R262, R263). -/
theorem plotRow_fb (c : Canvas) (row : Byte) (py x0 cols qy qx : Nat) :
    FrameBuffer.pixel (c.plotRow row py x0 cols).fb qy qx =
      Bool.xor (FrameBuffer.pixel c.fb qy qx) (spriteRowBit row py x0 qy qx cols) := by
  induction cols with
  | zero => unfold spriteRowBit; rw [decide_eq_false (by omega)]; simp [Canvas.plotRow]
  | succ k ih =>
    rw [Canvas.plotRow, plot_fb, ih]
    unfold spriteRowBit
    by_cases hx : qx = x0 + k
    · subst hx
      by_cases h : qy = py ∧ py < 32 ∧ x0 + k < 64
      · simp [h]
      · have h1 : ¬ (qy = py ∧ x0 ≤ x0 + k ∧ x0 + k < x0 + k ∧ py < 32 ∧ x0 + k < 64) := by omega
        have h2 : ¬ (qy = py ∧ x0 ≤ x0 + k ∧ x0 + k < x0 + (k+1) ∧ py < 32 ∧ x0 + k < 64) := by omega
        have h3 : ¬ (qy = py ∧ x0 + k = x0 + k ∧ py < 32 ∧ x0 + k < 64) := by omega
        rw [decide_eq_false h1, decide_eq_false h2, decide_eq_false h3]; simp
    · have h3 : ¬ (qy = py ∧ qx = x0 + k ∧ py < 32 ∧ x0 + k < 64) := by omega
      have : (qy = py ∧ x0 ≤ qx ∧ qx < x0 + k ∧ py < 32 ∧ qx < 64) ↔
          (qy = py ∧ x0 ≤ qx ∧ qx < x0 + (k+1) ∧ py < 32 ∧ qx < 64) := by omega
      rw [decide_eq_false h3]; simp only [this]; simp

/-- One sprite row collides when one of its on-screen bits meets a pixel that was 1 (44_display.md R264). -/
theorem plotRow_collision (c : Canvas) (row : Byte) (py x0 cols : Nat) :
    (c.plotRow row py x0 cols).collision = true ↔
      c.collision = true ∨ ∃ qx, spriteRowBit row py x0 py qx cols = true ∧ FrameBuffer.pixel c.fb py qx = true := by
  induction cols with
  | zero => simp [Canvas.plotRow, spriteRowBit]; try (intros; exfalso; omega)
  | succ k ih =>
    rw [Canvas.plotRow, plot_collision, Bool.or_eq_true, ih, plotRow_fb]
    have h0 : spriteRowBit row py x0 py (x0 + k) k = false := by simp [spriteRowBit]
    rw [h0]
    simp only [Bool.xor_false, Bool.and_eq_true]
    constructor
    · rintro ((h | ⟨q, h1, h2⟩) | ⟨h1, h2⟩)
      · exact .inl h
      · refine .inr ⟨q, ?_, h2⟩; simp [spriteRowBit] at h1 ⊢; exact ⟨by omega, h1.2⟩
      · refine .inr ⟨x0 + k, ?_, h1⟩
        simp [spriteRowBit, h2]; unfold FrameBuffer.pixel at h1; split at h1
        · assumption
        · cases h1
    · rintro (h | ⟨q, h1, h2⟩)
      · exact .inl (.inl h)
      · by_cases hq : q = x0 + k
        · subst hq; refine .inr ⟨h2, ?_⟩; simp [spriteRowBit] at h1; exact h1.2
        · refine .inl (.inr ⟨q, ?_, h2⟩); simp [spriteRowBit] at h1 ⊢; exact ⟨by omega, h1.2⟩

/-- The bit that the first `rows` rows of the sprite at address a, from (y0, x0) on, have at (qy, qx). -/
def spriteRowsBit (m : Memory) (a y0 x0 rows qy qx : Nat) : Bool :=
  decide (y0 ≤ qy ∧ qy < y0 + rows ∧ x0 ≤ qx ∧ qx < x0 + 8 ∧ qy < 32 ∧ qx < 64) &&
    (Memory.read m (a + (qy - y0))).getLsbD (7 - (qx - x0))

/-- The sprite XORs its on-screen bits into the framebuffer (44_display.md R265). -/
theorem plotRows_fb (c : Canvas) (m : Memory) (a y0 x0 rows qy qx : Nat) :
    FrameBuffer.pixel (c.plotRows m a y0 x0 rows).fb qy qx =
      Bool.xor (FrameBuffer.pixel c.fb qy qx) (spriteRowsBit m a y0 x0 rows qy qx) := by
  induction rows with
  | zero => unfold spriteRowsBit; rw [decide_eq_false (by omega)]; simp [Canvas.plotRows]
  | succ k ih =>
    rw [Canvas.plotRows, plotRow_fb, ih]
    unfold spriteRowsBit spriteRowBit
    by_cases hx : qy = y0 + k
    · subst hx
      have h1 : ¬ (y0 ≤ y0 + k ∧ y0 + k < y0 + k ∧ x0 ≤ qx ∧ qx < x0 + 8 ∧ y0 + k < 32 ∧ qx < 64) := by omega
      rw [decide_eq_false h1]; simp
    · have h3 : ¬ (qy = y0 + k ∧ x0 ≤ qx ∧ qx < x0 + 8 ∧ y0 + k < 32 ∧ qx < 64) := by omega
      have : (y0 ≤ qy ∧ qy < y0 + k ∧ x0 ≤ qx ∧ qx < x0 + 8 ∧ qy < 32 ∧ qx < 64) ↔
          (y0 ≤ qy ∧ qy < y0 + (k+1) ∧ x0 ≤ qx ∧ qx < x0 + 8 ∧ qy < 32 ∧ qx < 64) := by omega
      rw [decide_eq_false h3]; simp only [this]; simp

/-- The sprite collides when one of its on-screen bits meets a pixel that was 1 before (44_display.md R264). -/
theorem plotRows_collision (c : Canvas) (m : Memory) (a y0 x0 rows : Nat) :
    (c.plotRows m a y0 x0 rows).collision = true ↔
      c.collision = true ∨ ∃ qy qx, spriteRowsBit m a y0 x0 rows qy qx = true ∧ FrameBuffer.pixel c.fb qy qx = true := by
  induction rows with
  | zero => simp [Canvas.plotRows, spriteRowsBit]; try (intros; exfalso; omega)
  | succ k ih =>
    rw [Canvas.plotRows, plotRow_collision, ih]
    simp only [plotRows_fb]
    have h0 : ∀ qx, spriteRowsBit m a y0 x0 k (y0 + k) qx = false := by intro qx; simp [spriteRowsBit]
    simp only [h0, Bool.xor_false]
    have hr : ∀ qx, spriteRowBit (Memory.read m (a + k)) (y0 + k) x0 (y0 + k) qx 8 =
        spriteRowsBit m a y0 x0 (k+1) (y0+k) qx := by
      intro qx; simp [spriteRowBit, spriteRowsBit]
    simp only [hr]
    constructor
    · rintro ((h | ⟨qy, qx, h1, h2⟩) | ⟨qx, h1, h2⟩)
      · exact .inl h
      · refine .inr ⟨qy, qx, ?_, h2⟩; simp [spriteRowsBit] at h1 ⊢; exact ⟨by omega, h1.2⟩
      · exact .inr ⟨_, _, h1, h2⟩
    · rintro (h | ⟨qy, qx, h1, h2⟩)
      · exact .inl (.inl h)
      · by_cases hq : qy = y0 + k
        · subst hq; exact .inr ⟨_, h1, h2⟩
        · refine .inl (.inr ⟨qy, qx, ?_, h2⟩); simp [spriteRowsBit] at h1 ⊢; exact ⟨by omega, h1.2⟩

end Sys2Proof.Machine
end

