-- ==== Sys2Proof/Laws/Memory.lean ====
section
/-! SUPPORT. The laws of main memory: read after write, every operation keeps the canonical form, and what
`oob` says of a range of addresses (20_memory.md R63, R71, R77). -/

namespace Sys2Proof.Machine

@[simp] theorem hw_memSize : hw.memSize = 4096 := rfl
@[simp] theorem hw_addrMax : hw.addrMax = 4095 := rfl
@[simp] theorem hw_progBase : hw.progBase = 512 := rfl
@[simp] theorem hw_progMax : hw.progMax = 3584 := rfl
@[simp] theorem hw_fbW : hw.fbW = 64 := rfl
@[simp] theorem hw_fbH : hw.fbH = 32 := rfl
@[simp] theorem hw_fontBase : hw.fontBase = 0 := rfl
@[simp] theorem hw_fontEnd : hw.fontEnd = 79 := rfl
@[simp] theorem hw_glyphBytes : hw.glyphBytes = 5 := rfl
@[simp] theorem hw_shiftSource : hw.shiftSource = .vx := rfl
@[simp] theorem hw_oddPcFetch : hw.oddPcFetch = .fault := rfl
@[simp] theorem hw_unsupportedPolicy : hw.unsupportedPolicy = .nop := rfl
@[simp] theorem hw_strict59 : hw.strict59 = false := rfl

/-- The sizes written into the type of State are the parameters of this hardware. -/
theorem state_sizes_are_the_parameters :
    hw.numV = 16 ∧ hw.stackDepth = 12 ∧ hw.fbW = 64 ∧ hw.fbH = 32 ∧ hw.numKeys = 16 ∧
      hw.pcWidth = 16 ∧ hw.iWidth = 16 ∧ hw.irWidth = 16 ∧ hw.timerWidth = 8 := by decide

@[simp] theorem read_nil (a : Nat) : Memory.read [] a = resetByte a := rfl

theorem read_cons (b : Nat) (v : Byte) (m : Memory) (a : Nat) :
    Memory.read ((b, v) :: m) a = if a = b then v else Memory.read m a := rfl

theorem read_insert (m : Memory) (a b : Nat) (v : Byte) :
    Memory.read (Memory.insert a v m) b = if b = a then v else Memory.read m b := by
  induction m with
  | nil => simp [Memory.insert, read_cons]
  | cons c m ih =>
    obtain ⟨k, u⟩ := c
    simp only [Memory.insert]
    split
    · simp [read_cons]
    · split
      · subst_vars; by_cases h : b = k <;> simp [read_cons, h]
      · rename_i h1 h2
        simp only [read_cons, ih]
        by_cases hb : b = a
        · subst hb; simp [h2]
        · simp [hb]

/-- An address below every listed one reads as its reset contents. -/
theorem read_of_not_listed (m : Memory) (a : Nat) (h : ∀ p ∈ m, p.1 ≠ a) :
    Memory.read m a = resetByte a := by
  induction m with
  | nil => rfl
  | cons c m ih =>
    obtain ⟨k, u⟩ := c
    have hk : a ≠ k := fun e => h (k, u) (by simp) e.symm
    simp [read_cons, hk, ih (fun p hp => h p (by simp [hp]))]

theorem read_delete (m : Memory) (a b : Nat) (h : m.Pairwise (fun p q => p.1 < q.1)) :
    Memory.read (Memory.delete a m) b = if b = a then resetByte a else Memory.read m b := by
  induction m with
  | nil => by_cases hb : b = a <;> simp [Memory.delete, hb]
  | cons c m ih =>
    obtain ⟨k, u⟩ := c
    rw [List.pairwise_cons] at h
    simp only [Memory.delete]
    split
    · rename_i hk
      subst hk
      by_cases hb : b = a
      · subst hb
        simpa using read_of_not_listed m b (fun p hp => by have := h.1 p hp; simp at this; omega)
      · simp [hb, read_cons]
    · rename_i hk
      simp only [read_cons, ih h.2]
      by_cases hb : b = a
      · subst hb; simp [hk]
      · simp [hb]

/-- READ AFTER WRITE (20_memory.md R71): the written address reads as the value, every other as before. -/
theorem read_write (m : Memory) (a b : Nat) (v : Byte) (h : Memory.wf m) :
    Memory.read (Memory.write m a v) b = if b = a then v else Memory.read m b := by
  unfold Memory.write
  split
  · rename_i hv; rw [read_delete m a b h.1, hv]
  · exact read_insert m a b v

theorem mem_insert {m : Memory} {a : Nat} {v : Byte} {p : Host.Cell}
    (hp : p ∈ Memory.insert a v m) : p = (a, v) ∨ p ∈ m := by
  induction m with
  | nil => simp [Memory.insert] at hp; exact .inl hp
  | cons c m ih =>
    obtain ⟨k, u⟩ := c
    simp only [Memory.insert] at hp
    split at hp
    · simpa using hp
    · split at hp
      · rcases List.mem_cons.1 hp with h | h
        · exact .inl h
        · exact .inr (by simp [h])
      · rcases List.mem_cons.1 hp with h | h
        · exact .inr (by simp [h])
        · rcases ih h with h | h
          · exact .inl h
          · exact .inr (by simp [h])

theorem mem_delete {m : Memory} {a : Nat} {p : Host.Cell} (hp : p ∈ Memory.delete a m) : p ∈ m := by
  induction m with
  | nil => simp [Memory.delete] at hp
  | cons c m ih =>
    obtain ⟨k, u⟩ := c
    simp only [Memory.delete] at hp
    split at hp
    · simp [hp]
    · rcases List.mem_cons.1 hp with h | h
      · simp [h]
      · simp [ih h]

theorem insert_sorted (m : Memory) (a : Nat) (v : Byte) (h : m.Pairwise (fun p q => p.1 < q.1)) :
    (Memory.insert a v m).Pairwise (fun p q => p.1 < q.1) := by
  induction m with
  | nil => simp [Memory.insert]
  | cons c m ih =>
    obtain ⟨k, u⟩ := c
    have hc := List.pairwise_cons.1 h
    simp only [Memory.insert]
    split
    · rename_i hlt
      refine List.pairwise_cons.2 ⟨fun p hp => ?_, h⟩
      rcases List.mem_cons.1 hp with e | e
      · subst e; exact hlt
      · exact Nat.lt_trans hlt (hc.1 p e)
    · split
      · rename_i he; subst he; exact List.pairwise_cons.2 hc
      · refine List.pairwise_cons.2 ⟨fun p hp => ?_, ih hc.2⟩
        rcases mem_insert hp with e | e
        · subst e; simp; omega
        · exact hc.1 p e

theorem delete_sorted (m : Memory) (a : Nat) (h : m.Pairwise (fun p q => p.1 < q.1)) :
    (Memory.delete a m).Pairwise (fun p q => p.1 < q.1) := by
  induction m with
  | nil => simp [Memory.delete]
  | cons c m ih =>
    obtain ⟨k, u⟩ := c
    have hc := List.pairwise_cons.1 h
    simp only [Memory.delete]
    split
    · exact hc.2
    · exact List.pairwise_cons.2 ⟨fun p hp => hc.1 p (mem_delete hp), ih hc.2⟩

theorem nil_wf : Memory.wf [] := ⟨List.Pairwise.nil, by simp⟩

/-- A write inside the address space keeps the canonical form. -/
theorem write_wf (m : Memory) (a : Nat) (v : Byte) (h : Memory.wf m) (ha : a < hw.memSize) :
    Memory.wf (Memory.write m a v) := by
  unfold Memory.write
  split
  · exact ⟨delete_sorted m a h.1, fun p hp => h.2 p (mem_delete hp)⟩
  · rename_i hv
    refine ⟨insert_sorted m a v h.1, fun p hp => ?_⟩
    rcases mem_insert hp with e | e
    · subst e; exact ⟨ha, hv⟩
    · exact h.2 p e

/-- A store of bytes inside the address space keeps the canonical form. -/
theorem writeBytes_wf (bs : List Byte) (m : Memory) (a : Nat) (h : Memory.wf m)
    (ha : a + bs.length ≤ hw.memSize) : Memory.wf (Memory.writeBytes m a bs) := by
  induction bs generalizing m a with
  | nil => exact h
  | cons b bs ih =>
    simp only [List.length_cons] at ha
    exact ih (Memory.write m a b) (a + 1) (write_wf m a b h (by omega)) (by omega)

/-- What a store of bytes leaves at each address: the bytes in order from `a` on, everything else as before. -/
theorem read_writeBytes (bs : List Byte) (m : Memory) (a b : Nat) (h : Memory.wf m)
    (ha : a + bs.length ≤ hw.memSize) :
    Memory.read (Memory.writeBytes m a bs) b =
      if a ≤ b ∧ b < a + bs.length then bs.getD (b - a) 0 else Memory.read m b := by
  induction bs generalizing m a with
  | nil => simp [Memory.writeBytes]
  | cons c bs ih =>
    simp only [List.length_cons] at ha ⊢
    have hw' := write_wf m a c h (by omega)
    rw [Memory.writeBytes, ih (Memory.write m a c) (a + 1) hw' (by omega), read_write m a b c h]
    by_cases h1 : b = a
    · subst h1; simp
    · by_cases h2 : a + 1 ≤ b ∧ b < a + 1 + bs.length
      · rw [if_pos h2, if_pos (by omega)]
        obtain ⟨k, hk⟩ : ∃ k, b - a = k + 1 := ⟨b - a - 1, by omega⟩
        rw [hk, List.getD_cons_succ]
        congr 1; omega
      · rw [if_neg h2, if_neg h1, if_neg (by omega)]

/-- `oob` finds nothing exactly when the whole range is in the address space. -/
theorem oob_eq_none_iff (a k : Nat) : oob a k = none ↔ a + k ≤ 0xFFF := by
  unfold oob; rw [hw_addrMax]; split <;> simp_all

/-- What `oob` finds is the lowest address of the range that is out of bounds. -/
theorem oob_eq_some_iff (a k b : Nat) : oob a k = some b ↔ 0xFFF < a + k ∧ b = max a 0x1000 := by
  unfold oob; rw [hw_addrMax, hw_memSize]
  split
  · simp; omega
  · simp only [Option.some.injEq]; omega

end Sys2Proof.Machine
end

