-- ==== Sys2Proof/Laws/State.lean ====
section
/-! SUPPORT. For each update of the state, one lemma per field (and for the observers readV and readMem): what it
leaves alone and what it writes. Later proofs use these and do not unfold record updates. -/

namespace Sys2Proof.Machine

/-! ### writeV -/

@[simp] theorem writeV_pc (s : State) (r : Reg) (b : Byte) : (s.writeV r b).pc = s.pc := rfl
@[simp] theorem writeV_i (s : State) (r : Reg) (b : Byte) : (s.writeV r b).i = s.i := rfl
@[simp] theorem writeV_ir (s : State) (r : Reg) (b : Byte) : (s.writeV r b).ir = s.ir := rfl
@[simp] theorem writeV_dt (s : State) (r : Reg) (b : Byte) : (s.writeV r b).dt = s.dt := rfl
@[simp] theorem writeV_st (s : State) (r : Reg) (b : Byte) : (s.writeV r b).st = s.st := rfl
@[simp] theorem writeV_sp (s : State) (r : Reg) (b : Byte) : (s.writeV r b).sp = s.sp := rfl
@[simp] theorem writeV_stack (s : State) (r : Reg) (b : Byte) : (s.writeV r b).stack = s.stack := rfl
@[simp] theorem writeV_keys (s : State) (r : Reg) (b : Byte) : (s.writeV r b).keys = s.keys := rfl
@[simp] theorem writeV_mode (s : State) (r : Reg) (b : Byte) : (s.writeV r b).mode = s.mode := rfl
@[simp] theorem writeV_mem (s : State) (r : Reg) (b : Byte) : (s.writeV r b).mem = s.mem := rfl
@[simp] theorem writeV_fb (s : State) (r : Reg) (b : Byte) : (s.writeV r b).fb = s.fb := rfl
@[simp] theorem writeV_session (s : State) (r : Reg) (b : Byte) : (s.writeV r b).session = s.session := rfl
@[simp] theorem writeV_schedule (s : State) (r : Reg) (b : Byte) : (s.writeV r b).schedule = s.schedule := rfl
@[simp] theorem writeV_draws (s : State) (r : Reg) (b : Byte) : (s.writeV r b).draws = s.draws := rfl
@[simp] theorem writeV_reports (s : State) (r : Reg) (b : Byte) : (s.writeV r b).reports = s.reports := rfl
@[simp] theorem writeV_readMem (s : State) (r : Reg) (b : Byte) (m : Nat) : (s.writeV r b).readMem m = s.readMem m := rfl

/-! ### writeResultAndFlag -/

@[simp] theorem writeResultAndFlag_pc (s : State) (x : Reg) (b f : Byte) : (s.writeResultAndFlag x b f).pc = s.pc := rfl
@[simp] theorem writeResultAndFlag_i (s : State) (x : Reg) (b f : Byte) : (s.writeResultAndFlag x b f).i = s.i := rfl
@[simp] theorem writeResultAndFlag_ir (s : State) (x : Reg) (b f : Byte) : (s.writeResultAndFlag x b f).ir = s.ir := rfl
@[simp] theorem writeResultAndFlag_dt (s : State) (x : Reg) (b f : Byte) : (s.writeResultAndFlag x b f).dt = s.dt := rfl
@[simp] theorem writeResultAndFlag_st (s : State) (x : Reg) (b f : Byte) : (s.writeResultAndFlag x b f).st = s.st := rfl
@[simp] theorem writeResultAndFlag_sp (s : State) (x : Reg) (b f : Byte) : (s.writeResultAndFlag x b f).sp = s.sp := rfl
@[simp] theorem writeResultAndFlag_stack (s : State) (x : Reg) (b f : Byte) : (s.writeResultAndFlag x b f).stack = s.stack := rfl
@[simp] theorem writeResultAndFlag_keys (s : State) (x : Reg) (b f : Byte) : (s.writeResultAndFlag x b f).keys = s.keys := rfl
@[simp] theorem writeResultAndFlag_mode (s : State) (x : Reg) (b f : Byte) : (s.writeResultAndFlag x b f).mode = s.mode := rfl
@[simp] theorem writeResultAndFlag_mem (s : State) (x : Reg) (b f : Byte) : (s.writeResultAndFlag x b f).mem = s.mem := rfl
@[simp] theorem writeResultAndFlag_fb (s : State) (x : Reg) (b f : Byte) : (s.writeResultAndFlag x b f).fb = s.fb := rfl
@[simp] theorem writeResultAndFlag_session (s : State) (x : Reg) (b f : Byte) : (s.writeResultAndFlag x b f).session = s.session := rfl
@[simp] theorem writeResultAndFlag_schedule (s : State) (x : Reg) (b f : Byte) : (s.writeResultAndFlag x b f).schedule = s.schedule := rfl
@[simp] theorem writeResultAndFlag_draws (s : State) (x : Reg) (b f : Byte) : (s.writeResultAndFlag x b f).draws = s.draws := rfl
@[simp] theorem writeResultAndFlag_reports (s : State) (x : Reg) (b f : Byte) : (s.writeResultAndFlag x b f).reports = s.reports := rfl
@[simp] theorem writeResultAndFlag_readMem (s : State) (x : Reg) (b f : Byte) (m : Nat) : (s.writeResultAndFlag x b f).readMem m = s.readMem m := rfl

/-! ### storeBytes -/

@[simp] theorem storeBytes_v (s : State) (a : Nat) (bs : List Byte) : (s.storeBytes a bs).v = s.v := rfl
@[simp] theorem storeBytes_pc (s : State) (a : Nat) (bs : List Byte) : (s.storeBytes a bs).pc = s.pc := rfl
@[simp] theorem storeBytes_i (s : State) (a : Nat) (bs : List Byte) : (s.storeBytes a bs).i = s.i := rfl
@[simp] theorem storeBytes_ir (s : State) (a : Nat) (bs : List Byte) : (s.storeBytes a bs).ir = s.ir := rfl
@[simp] theorem storeBytes_dt (s : State) (a : Nat) (bs : List Byte) : (s.storeBytes a bs).dt = s.dt := rfl
@[simp] theorem storeBytes_st (s : State) (a : Nat) (bs : List Byte) : (s.storeBytes a bs).st = s.st := rfl
@[simp] theorem storeBytes_sp (s : State) (a : Nat) (bs : List Byte) : (s.storeBytes a bs).sp = s.sp := rfl
@[simp] theorem storeBytes_stack (s : State) (a : Nat) (bs : List Byte) : (s.storeBytes a bs).stack = s.stack := rfl
@[simp] theorem storeBytes_keys (s : State) (a : Nat) (bs : List Byte) : (s.storeBytes a bs).keys = s.keys := rfl
@[simp] theorem storeBytes_mode (s : State) (a : Nat) (bs : List Byte) : (s.storeBytes a bs).mode = s.mode := rfl
@[simp] theorem storeBytes_mem (s : State) (a : Nat) (bs : List Byte) :
    (s.storeBytes a bs).mem = Memory.writeBytes s.mem a bs := rfl
@[simp] theorem storeBytes_fb (s : State) (a : Nat) (bs : List Byte) : (s.storeBytes a bs).fb = s.fb := rfl
@[simp] theorem storeBytes_session (s : State) (a : Nat) (bs : List Byte) : (s.storeBytes a bs).session = s.session := rfl
@[simp] theorem storeBytes_schedule (s : State) (a : Nat) (bs : List Byte) : (s.storeBytes a bs).schedule = s.schedule := rfl
@[simp] theorem storeBytes_draws (s : State) (a : Nat) (bs : List Byte) : (s.storeBytes a bs).draws = s.draws := rfl
@[simp] theorem storeBytes_reports (s : State) (a : Nat) (bs : List Byte) : (s.storeBytes a bs).reports = s.reports := rfl
@[simp] theorem storeBytes_readV (s : State) (a : Nat) (bs : List Byte) (q : Reg) : (s.storeBytes a bs).readV q = s.readV q := rfl

/-! ### jump -/

@[simp] theorem jump_v (s : State) (w : Word) : (s.jump w).v = s.v := rfl
@[simp] theorem jump_pc (s : State) (w : Word) :
    (s.jump w).pc = w := rfl
@[simp] theorem jump_i (s : State) (w : Word) : (s.jump w).i = s.i := rfl
@[simp] theorem jump_ir (s : State) (w : Word) : (s.jump w).ir = s.ir := rfl
@[simp] theorem jump_dt (s : State) (w : Word) : (s.jump w).dt = s.dt := rfl
@[simp] theorem jump_st (s : State) (w : Word) : (s.jump w).st = s.st := rfl
@[simp] theorem jump_sp (s : State) (w : Word) : (s.jump w).sp = s.sp := rfl
@[simp] theorem jump_stack (s : State) (w : Word) : (s.jump w).stack = s.stack := rfl
@[simp] theorem jump_keys (s : State) (w : Word) : (s.jump w).keys = s.keys := rfl
@[simp] theorem jump_mode (s : State) (w : Word) : (s.jump w).mode = s.mode := rfl
@[simp] theorem jump_mem (s : State) (w : Word) : (s.jump w).mem = s.mem := rfl
@[simp] theorem jump_fb (s : State) (w : Word) : (s.jump w).fb = s.fb := rfl
@[simp] theorem jump_session (s : State) (w : Word) : (s.jump w).session = s.session := rfl
@[simp] theorem jump_schedule (s : State) (w : Word) : (s.jump w).schedule = s.schedule := rfl
@[simp] theorem jump_draws (s : State) (w : Word) : (s.jump w).draws = s.draws := rfl
@[simp] theorem jump_reports (s : State) (w : Word) : (s.jump w).reports = s.reports := rfl
@[simp] theorem jump_readV (s : State) (w : Word) (q : Reg) : (s.jump w).readV q = s.readV q := rfl
@[simp] theorem jump_readMem (s : State) (w : Word) (m : Nat) : (s.jump w).readMem m = s.readMem m := rfl

/-! ### enterFault -/

@[simp] theorem enterFault_v (s : State) (f : FaultRecord) : (s.enterFault f).v = s.v := rfl
@[simp] theorem enterFault_pc (s : State) (f : FaultRecord) : (s.enterFault f).pc = s.pc := rfl
@[simp] theorem enterFault_i (s : State) (f : FaultRecord) : (s.enterFault f).i = s.i := rfl
@[simp] theorem enterFault_ir (s : State) (f : FaultRecord) : (s.enterFault f).ir = s.ir := rfl
@[simp] theorem enterFault_dt (s : State) (f : FaultRecord) : (s.enterFault f).dt = s.dt := rfl
@[simp] theorem enterFault_st (s : State) (f : FaultRecord) : (s.enterFault f).st = s.st := rfl
@[simp] theorem enterFault_sp (s : State) (f : FaultRecord) : (s.enterFault f).sp = s.sp := rfl
@[simp] theorem enterFault_stack (s : State) (f : FaultRecord) : (s.enterFault f).stack = s.stack := rfl
@[simp] theorem enterFault_keys (s : State) (f : FaultRecord) : (s.enterFault f).keys = s.keys := rfl
@[simp] theorem enterFault_mode (s : State) (f : FaultRecord) :
    (s.enterFault f).mode = .faulted f := rfl
@[simp] theorem enterFault_mem (s : State) (f : FaultRecord) : (s.enterFault f).mem = s.mem := rfl
@[simp] theorem enterFault_fb (s : State) (f : FaultRecord) : (s.enterFault f).fb = s.fb := rfl
@[simp] theorem enterFault_session (s : State) (f : FaultRecord) : (s.enterFault f).session = s.session := rfl
@[simp] theorem enterFault_schedule (s : State) (f : FaultRecord) : (s.enterFault f).schedule = s.schedule := rfl
@[simp] theorem enterFault_draws (s : State) (f : FaultRecord) : (s.enterFault f).draws = s.draws := rfl
@[simp] theorem enterFault_reports (s : State) (f : FaultRecord) : (s.enterFault f).reports = s.reports := rfl
@[simp] theorem enterFault_readV (s : State) (f : FaultRecord) (q : Reg) : (s.enterFault f).readV q = s.readV q := rfl
@[simp] theorem enterFault_readMem (s : State) (f : FaultRecord) (m : Nat) : (s.enterFault f).readMem m = s.readMem m := rfl

/-! ### suspend -/

@[simp] theorem suspend_v (s : State) (r : Reg) : (s.suspend r).v = s.v := rfl
@[simp] theorem suspend_pc (s : State) (r : Reg) : (s.suspend r).pc = s.pc := rfl
@[simp] theorem suspend_i (s : State) (r : Reg) : (s.suspend r).i = s.i := rfl
@[simp] theorem suspend_ir (s : State) (r : Reg) : (s.suspend r).ir = s.ir := rfl
@[simp] theorem suspend_dt (s : State) (r : Reg) : (s.suspend r).dt = s.dt := rfl
@[simp] theorem suspend_st (s : State) (r : Reg) : (s.suspend r).st = s.st := rfl
@[simp] theorem suspend_sp (s : State) (r : Reg) : (s.suspend r).sp = s.sp := rfl
@[simp] theorem suspend_stack (s : State) (r : Reg) : (s.suspend r).stack = s.stack := rfl
@[simp] theorem suspend_keys (s : State) (r : Reg) : (s.suspend r).keys = s.keys := rfl
@[simp] theorem suspend_mode (s : State) (r : Reg) :
    (s.suspend r).mode = .awaitingKey r := rfl
@[simp] theorem suspend_mem (s : State) (r : Reg) : (s.suspend r).mem = s.mem := rfl
@[simp] theorem suspend_fb (s : State) (r : Reg) : (s.suspend r).fb = s.fb := rfl
@[simp] theorem suspend_session (s : State) (r : Reg) : (s.suspend r).session = s.session := rfl
@[simp] theorem suspend_schedule (s : State) (r : Reg) : (s.suspend r).schedule = s.schedule := rfl
@[simp] theorem suspend_draws (s : State) (r : Reg) : (s.suspend r).draws = s.draws := rfl
@[simp] theorem suspend_reports (s : State) (r : Reg) : (s.suspend r).reports = s.reports := rfl
@[simp] theorem suspend_readV (s : State) (r : Reg) (q : Reg) : (s.suspend r).readV q = s.readV q := rfl
@[simp] theorem suspend_readMem (s : State) (r : Reg) (m : Nat) : (s.suspend r).readMem m = s.readMem m := rfl

/-! ### fetch -/

@[simp] theorem fetch_v (s : State) : (s.fetch).v = s.v := rfl
@[simp] theorem fetch_pc (s : State) :
    (s.fetch).pc = s.pc + 2 := rfl
@[simp] theorem fetch_i (s : State) : (s.fetch).i = s.i := rfl
@[simp] theorem fetch_ir (s : State) :
    (s.fetch).ir = s.wordAtPc := rfl
@[simp] theorem fetch_dt (s : State) : (s.fetch).dt = s.dt := rfl
@[simp] theorem fetch_st (s : State) : (s.fetch).st = s.st := rfl
@[simp] theorem fetch_sp (s : State) : (s.fetch).sp = s.sp := rfl
@[simp] theorem fetch_stack (s : State) : (s.fetch).stack = s.stack := rfl
@[simp] theorem fetch_keys (s : State) : (s.fetch).keys = s.keys := rfl
@[simp] theorem fetch_mode (s : State) : (s.fetch).mode = s.mode := rfl
@[simp] theorem fetch_mem (s : State) : (s.fetch).mem = s.mem := rfl
@[simp] theorem fetch_fb (s : State) : (s.fetch).fb = s.fb := rfl
@[simp] theorem fetch_session (s : State) : (s.fetch).session = s.session := rfl
@[simp] theorem fetch_schedule (s : State) : (s.fetch).schedule = s.schedule := rfl
@[simp] theorem fetch_draws (s : State) : (s.fetch).draws = s.draws := rfl
@[simp] theorem fetch_reports (s : State) : (s.fetch).reports = s.reports := rfl
@[simp] theorem fetch_readV (s : State) (q : Reg) : (s.fetch).readV q = s.readV q := rfl
@[simp] theorem fetch_readMem (s : State) (m : Nat) : (s.fetch).readMem m = s.readMem m := rfl

/-! ### maskDraw -/

@[simp] theorem maskDraw_pc (d : Byte) (x : Reg) (nn : Byte) (s : State) : (maskDraw d x nn s).pc = s.pc := rfl
@[simp] theorem maskDraw_i (d : Byte) (x : Reg) (nn : Byte) (s : State) : (maskDraw d x nn s).i = s.i := rfl
@[simp] theorem maskDraw_ir (d : Byte) (x : Reg) (nn : Byte) (s : State) : (maskDraw d x nn s).ir = s.ir := rfl
@[simp] theorem maskDraw_dt (d : Byte) (x : Reg) (nn : Byte) (s : State) : (maskDraw d x nn s).dt = s.dt := rfl
@[simp] theorem maskDraw_st (d : Byte) (x : Reg) (nn : Byte) (s : State) : (maskDraw d x nn s).st = s.st := rfl
@[simp] theorem maskDraw_sp (d : Byte) (x : Reg) (nn : Byte) (s : State) : (maskDraw d x nn s).sp = s.sp := rfl
@[simp] theorem maskDraw_stack (d : Byte) (x : Reg) (nn : Byte) (s : State) : (maskDraw d x nn s).stack = s.stack := rfl
@[simp] theorem maskDraw_keys (d : Byte) (x : Reg) (nn : Byte) (s : State) : (maskDraw d x nn s).keys = s.keys := rfl
@[simp] theorem maskDraw_mode (d : Byte) (x : Reg) (nn : Byte) (s : State) : (maskDraw d x nn s).mode = s.mode := rfl
@[simp] theorem maskDraw_mem (d : Byte) (x : Reg) (nn : Byte) (s : State) : (maskDraw d x nn s).mem = s.mem := rfl
@[simp] theorem maskDraw_fb (d : Byte) (x : Reg) (nn : Byte) (s : State) : (maskDraw d x nn s).fb = s.fb := rfl
@[simp] theorem maskDraw_session (d : Byte) (x : Reg) (nn : Byte) (s : State) : (maskDraw d x nn s).session = s.session := rfl
@[simp] theorem maskDraw_schedule (d : Byte) (x : Reg) (nn : Byte) (s : State) : (maskDraw d x nn s).schedule = s.schedule := rfl
@[simp] theorem maskDraw_draws (d : Byte) (x : Reg) (nn : Byte) (s : State) :
    (maskDraw d x nn s).draws = s.draws + 1 := rfl
@[simp] theorem maskDraw_reports (d : Byte) (x : Reg) (nn : Byte) (s : State) : (maskDraw d x nn s).reports = s.reports := rfl
@[simp] theorem maskDraw_readMem (d : Byte) (x : Reg) (nn : Byte) (s : State) (m : Nat) : (maskDraw d x nn s).readMem m = s.readMem m := rfl

/-! ### showCanvas -/

@[simp] theorem showCanvas_pc (s : State) (c : Canvas) : (s.showCanvas c).pc = s.pc := rfl
@[simp] theorem showCanvas_i (s : State) (c : Canvas) : (s.showCanvas c).i = s.i := rfl
@[simp] theorem showCanvas_ir (s : State) (c : Canvas) : (s.showCanvas c).ir = s.ir := rfl
@[simp] theorem showCanvas_dt (s : State) (c : Canvas) : (s.showCanvas c).dt = s.dt := rfl
@[simp] theorem showCanvas_st (s : State) (c : Canvas) : (s.showCanvas c).st = s.st := rfl
@[simp] theorem showCanvas_sp (s : State) (c : Canvas) : (s.showCanvas c).sp = s.sp := rfl
@[simp] theorem showCanvas_stack (s : State) (c : Canvas) : (s.showCanvas c).stack = s.stack := rfl
@[simp] theorem showCanvas_keys (s : State) (c : Canvas) : (s.showCanvas c).keys = s.keys := rfl
@[simp] theorem showCanvas_mode (s : State) (c : Canvas) : (s.showCanvas c).mode = s.mode := rfl
@[simp] theorem showCanvas_mem (s : State) (c : Canvas) : (s.showCanvas c).mem = s.mem := rfl
@[simp] theorem showCanvas_fb (s : State) (c : Canvas) :
    (s.showCanvas c).fb = c.fb := rfl
@[simp] theorem showCanvas_session (s : State) (c : Canvas) : (s.showCanvas c).session = s.session := rfl
@[simp] theorem showCanvas_schedule (s : State) (c : Canvas) : (s.showCanvas c).schedule = s.schedule := rfl
@[simp] theorem showCanvas_draws (s : State) (c : Canvas) : (s.showCanvas c).draws = s.draws := rfl
@[simp] theorem showCanvas_reports (s : State) (c : Canvas) : (s.showCanvas c).reports = s.reports := rfl
@[simp] theorem showCanvas_readMem (s : State) (c : Canvas) (m : Nat) : (s.showCanvas c).readMem m = s.readMem m := rfl

/-! ### takeTick -/

@[simp] theorem takeTick_v (s : State) : (s.takeTick).v = s.v := rfl
@[simp] theorem takeTick_pc (s : State) : (s.takeTick).pc = s.pc := rfl
@[simp] theorem takeTick_i (s : State) : (s.takeTick).i = s.i := rfl
@[simp] theorem takeTick_ir (s : State) : (s.takeTick).ir = s.ir := rfl
@[simp] theorem takeTick_dt (s : State) :
    (s.takeTick).dt = countDown s.dt := rfl
@[simp] theorem takeTick_st (s : State) :
    (s.takeTick).st = countDown s.st := rfl
@[simp] theorem takeTick_sp (s : State) : (s.takeTick).sp = s.sp := rfl
@[simp] theorem takeTick_stack (s : State) : (s.takeTick).stack = s.stack := rfl
@[simp] theorem takeTick_keys (s : State) : (s.takeTick).keys = s.keys := rfl
@[simp] theorem takeTick_mode (s : State) : (s.takeTick).mode = s.mode := rfl
@[simp] theorem takeTick_mem (s : State) : (s.takeTick).mem = s.mem := rfl
@[simp] theorem takeTick_fb (s : State) : (s.takeTick).fb = s.fb := rfl
@[simp] theorem takeTick_session (s : State) : (s.takeTick).session = s.session := rfl
@[simp] theorem takeTick_schedule (s : State) : (s.takeTick).schedule = s.schedule := rfl
@[simp] theorem takeTick_draws (s : State) : (s.takeTick).draws = s.draws := rfl
@[simp] theorem takeTick_reports (s : State) : (s.takeTick).reports = s.reports := rfl
@[simp] theorem takeTick_readV (s : State) (q : Reg) : (s.takeTick).readV q = s.readV q := rfl
@[simp] theorem takeTick_readMem (s : State) (m : Nat) : (s.takeTick).readMem m = s.readMem m := rfl

/-! ### shutDown -/

@[simp] theorem shutDown_v (s : State) : (s.shutDown).v = State.reset.v := rfl
@[simp] theorem shutDown_pc (s : State) : (s.shutDown).pc = State.reset.pc := rfl
@[simp] theorem shutDown_i (s : State) : (s.shutDown).i = State.reset.i := rfl
@[simp] theorem shutDown_ir (s : State) : (s.shutDown).ir = State.reset.ir := rfl
@[simp] theorem shutDown_dt (s : State) : (s.shutDown).dt = State.reset.dt := rfl
@[simp] theorem shutDown_st (s : State) : (s.shutDown).st = State.reset.st := rfl
@[simp] theorem shutDown_sp (s : State) : (s.shutDown).sp = State.reset.sp := rfl
@[simp] theorem shutDown_stack (s : State) : (s.shutDown).stack = State.reset.stack := rfl
@[simp] theorem shutDown_keys (s : State) : (s.shutDown).keys = State.reset.keys := rfl
@[simp] theorem shutDown_mode (s : State) : (s.shutDown).mode = State.reset.mode := rfl
@[simp] theorem shutDown_mem (s : State) : (s.shutDown).mem = State.reset.mem := rfl
@[simp] theorem shutDown_fb (s : State) : (s.shutDown).fb = State.reset.fb := rfl
@[simp] theorem shutDown_reports (s : State) : (s.shutDown).reports = State.reset.reports := rfl
@[simp] theorem shutDown_schedule (s : State) : (s.shutDown).schedule = s.schedule := rfl
@[simp] theorem shutDown_draws (s : State) : (s.shutDown).draws = s.draws := rfl
@[simp] theorem shutDown_session (s : State) : (s.shutDown).session = .ended := rfl

/-! ### skipIf -/

@[simp] theorem skipIf_v (s : State) (c : Bool) : (s.skipIf c).v = s.v := by unfold State.skipIf; split <;> rfl
@[simp] theorem skipIf_pc (s : State) (c : Bool) :
    (s.skipIf c).pc = (if c then s.pc + 2 else s.pc) := by unfold State.skipIf; split <;> rfl
@[simp] theorem skipIf_i (s : State) (c : Bool) : (s.skipIf c).i = s.i := by unfold State.skipIf; split <;> rfl
@[simp] theorem skipIf_ir (s : State) (c : Bool) : (s.skipIf c).ir = s.ir := by unfold State.skipIf; split <;> rfl
@[simp] theorem skipIf_dt (s : State) (c : Bool) : (s.skipIf c).dt = s.dt := by unfold State.skipIf; split <;> rfl
@[simp] theorem skipIf_st (s : State) (c : Bool) : (s.skipIf c).st = s.st := by unfold State.skipIf; split <;> rfl
@[simp] theorem skipIf_sp (s : State) (c : Bool) : (s.skipIf c).sp = s.sp := by unfold State.skipIf; split <;> rfl
@[simp] theorem skipIf_stack (s : State) (c : Bool) : (s.skipIf c).stack = s.stack := by unfold State.skipIf; split <;> rfl
@[simp] theorem skipIf_keys (s : State) (c : Bool) : (s.skipIf c).keys = s.keys := by unfold State.skipIf; split <;> rfl
@[simp] theorem skipIf_mode (s : State) (c : Bool) : (s.skipIf c).mode = s.mode := by unfold State.skipIf; split <;> rfl
@[simp] theorem skipIf_mem (s : State) (c : Bool) : (s.skipIf c).mem = s.mem := by unfold State.skipIf; split <;> rfl
@[simp] theorem skipIf_fb (s : State) (c : Bool) : (s.skipIf c).fb = s.fb := by unfold State.skipIf; split <;> rfl
@[simp] theorem skipIf_session (s : State) (c : Bool) : (s.skipIf c).session = s.session := by unfold State.skipIf; split <;> rfl
@[simp] theorem skipIf_schedule (s : State) (c : Bool) : (s.skipIf c).schedule = s.schedule := by unfold State.skipIf; split <;> rfl
@[simp] theorem skipIf_draws (s : State) (c : Bool) : (s.skipIf c).draws = s.draws := by unfold State.skipIf; split <;> rfl
@[simp] theorem skipIf_reports (s : State) (c : Bool) : (s.skipIf c).reports = s.reports := by unfold State.skipIf; split <;> rfl
@[simp] theorem skipIf_readV (s : State) (c : Bool) (q : Reg) : (s.skipIf c).readV q = s.readV q := by unfold State.skipIf; split <;> rfl
@[simp] theorem skipIf_readMem (s : State) (c : Bool) (m : Nat) : (s.skipIf c).readMem m = s.readMem m := by unfold State.skipIf; split <;> rfl

/-! ### loadRegs -/

@[simp] theorem loadRegs_pc (s : State) (a k : Nat) : (s.loadRegs a k).pc = s.pc := by
  induction k with
  | zero => rfl
  | succ k ih => exact ih
@[simp] theorem loadRegs_i (s : State) (a k : Nat) : (s.loadRegs a k).i = s.i := by
  induction k with
  | zero => rfl
  | succ k ih => exact ih
@[simp] theorem loadRegs_ir (s : State) (a k : Nat) : (s.loadRegs a k).ir = s.ir := by
  induction k with
  | zero => rfl
  | succ k ih => exact ih
@[simp] theorem loadRegs_dt (s : State) (a k : Nat) : (s.loadRegs a k).dt = s.dt := by
  induction k with
  | zero => rfl
  | succ k ih => exact ih
@[simp] theorem loadRegs_st (s : State) (a k : Nat) : (s.loadRegs a k).st = s.st := by
  induction k with
  | zero => rfl
  | succ k ih => exact ih
@[simp] theorem loadRegs_sp (s : State) (a k : Nat) : (s.loadRegs a k).sp = s.sp := by
  induction k with
  | zero => rfl
  | succ k ih => exact ih
@[simp] theorem loadRegs_stack (s : State) (a k : Nat) : (s.loadRegs a k).stack = s.stack := by
  induction k with
  | zero => rfl
  | succ k ih => exact ih
@[simp] theorem loadRegs_keys (s : State) (a k : Nat) : (s.loadRegs a k).keys = s.keys := by
  induction k with
  | zero => rfl
  | succ k ih => exact ih
@[simp] theorem loadRegs_mode (s : State) (a k : Nat) : (s.loadRegs a k).mode = s.mode := by
  induction k with
  | zero => rfl
  | succ k ih => exact ih
@[simp] theorem loadRegs_mem (s : State) (a k : Nat) : (s.loadRegs a k).mem = s.mem := by
  induction k with
  | zero => rfl
  | succ k ih => exact ih
@[simp] theorem loadRegs_fb (s : State) (a k : Nat) : (s.loadRegs a k).fb = s.fb := by
  induction k with
  | zero => rfl
  | succ k ih => exact ih
@[simp] theorem loadRegs_session (s : State) (a k : Nat) : (s.loadRegs a k).session = s.session := by
  induction k with
  | zero => rfl
  | succ k ih => exact ih
@[simp] theorem loadRegs_schedule (s : State) (a k : Nat) : (s.loadRegs a k).schedule = s.schedule := by
  induction k with
  | zero => rfl
  | succ k ih => exact ih
@[simp] theorem loadRegs_draws (s : State) (a k : Nat) : (s.loadRegs a k).draws = s.draws := by
  induction k with
  | zero => rfl
  | succ k ih => exact ih
@[simp] theorem loadRegs_reports (s : State) (a k : Nat) : (s.loadRegs a k).reports = s.reports := by
  induction k with
  | zero => rfl
  | succ k ih => exact ih
@[simp] theorem loadRegs_readMem (s : State) (a k : Nat) (m : Nat) : (s.loadRegs a k).readMem m = s.readMem m := by
  simp [State.readMem]

end Sys2Proof.Machine
end

