-- ==== Sys2Proof/Laws/Ops.lean ====
section
/-! SUPPORT. One lemma per shared operation that says once what it does: registers, the call stack, fault entry,
checked accesses, and the fetch checks. -/

namespace Sys2Proof.Machine

/-! ### Registers -/

@[simp] theorem vf_eq : vf = (15 : Reg) := rfl

/-- READ AFTER WRITE of a general register (10_state.md R30). -/
theorem readV_writeV (s : State) (r q : Reg) (b : Byte) :
    (s.writeV r b).readV q = if q = r then b else s.readV q := by
  unfold State.readV State.writeV
  by_cases h : q = r
  · subst h; simp
  · have h' : ¬ r.toNat = q.toNat := fun e => h (BitVec.eq_of_toNat_eq e.symm)
    simp [h, h']

/-- The flag is written after the result (40_engine.md R125). -/
theorem readV_writeResultAndFlag (s : State) (x q : Reg) (b f : Byte) :
    (s.writeResultAndFlag x b f).readV q = if q = 15 then f else if q = x then b else s.readV q := by
  simp [State.writeResultAndFlag, readV_writeV]

/-- What RND leaves in each register (42_alu.md R210). -/
theorem readV_maskDraw (r : Byte) (x : Reg) (nn : Byte) (s : State) (q : Reg) :
    (maskDraw r x nn s).readV q = if q = x then r &&& nn else s.readV q := readV_writeV s x q (r &&& nn)

/-- The registers are known when every one reads as known. -/
theorem v_ext {s t : State} (h : ∀ q, s.readV q = t.readV q) : s.v = t.v := by
  apply Vector.ext
  intro k hk
  have := h (BitVec.ofNat 4 k)
  simpa [State.readV, Nat.mod_eq_of_lt (show k < 16 from hk)] using this

/-- What LD Vx,[I] leaves in each register (43_index_memory.md R235). -/
theorem readV_loadRegs (s : State) (a k : Nat) (q : Reg) (hk : k ≤ 16) :
    (s.loadRegs a k).readV q = if q.toNat < k then s.readMem (a + q.toNat) else s.readV q := by
  induction k with
  | zero => simp [State.loadRegs]
  | succ k ih =>
    rw [State.loadRegs, readV_writeV, ih (by omega)]
    have hq : q = BitVec.ofNat 4 k ↔ q.toNat = k := by
      rw [← BitVec.toNat_inj]; simp [Nat.mod_eq_of_lt (show k < 16 by omega)]
    by_cases h : q.toNat = k
    · simp [hq.2 h, Nat.mod_eq_of_lt (show k < 16 by omega)]
    · rw [if_neg (fun e => h (hq.1 e))]
      by_cases h2 : q.toNat < k
      · rw [if_pos h2, if_pos (by omega)]
      · rw [if_neg h2, if_neg (by omega)]

/-! ### Call stack -/

/-- A push below capacity: the entry at SP is written, SP goes up by one, nothing else changes. -/
theorem push_of_lt (s : State) (w : Word) (h : s.sp.val < 12) :
    s.push w = some { s with stack := s.stack.set s.sp.val w h, sp := ⟨s.sp.val + 1, by omega⟩ } := by
  simp [State.push, h]

/-- A push fails exactly at capacity. -/
theorem push_eq_none_iff (s : State) (w : Word) : s.push w = none ↔ s.sp.val = 12 := by
  unfold State.push; split <;> simp <;> omega

/-- A pop of a nonempty stack: SP goes down by one and the uncovered entry keeps its value. -/
theorem pop_of_pos (s : State) (h : s.sp.val ≠ 0) :
    s.pop = some (s.stack[s.sp.val - 1]'(by omega), { s with sp := ⟨s.sp.val - 1, by omega⟩ }) := by
  simp [State.pop, h]

/-- A pop fails exactly on the empty stack. -/
theorem pop_eq_none_iff (s : State) : s.pop = none ↔ s.sp.val = 0 := by
  unfold State.pop; split <;> simp_all

/-! ### Faults and checked accesses -/

/-- Raising a fault is a next state that differs in MODE alone (40_engine.md R131, R132). -/
theorem raise_eq (k : FaultKind) (a : Nat) (s : State) :
    raise k a s = .next { s with mode := .faulted ⟨k, s.pc - 2, s.ir, BitVec.ofNat 16 a⟩ } := rfl

/-- An access in range runs. -/
theorem checkedAccess_of_le {a k : Nat} (s t : State) (h : a + k ≤ 0xFFF) :
    checkedAccess a k s t = .next t := by
  simp [checkedAccess, (oob_eq_none_iff a k).2 h]

/-- An access out of range raises OutOfBoundsAccess with the lowest bad address and does nothing else. -/
theorem checkedAccess_of_gt {a k : Nat} (s t : State) (h : 0xFFF < a + k) :
    checkedAccess a k s t = raise .outOfBoundsAccess (max a 0x1000) s := by
  simp [checkedAccess, (oob_eq_some_iff a k (max a 0x1000)).2 ⟨h, rfl⟩]

/-! ### Fetch -/

/-- The fetch checks pass exactly at an even PC with both bytes in range (40_engine.md R122). -/
theorem fetchCheck_eq_none_iff (s : State) :
    fetchCheck s = none ↔ s.pc.toNat % 2 = 0 ∧ s.pc.toNat + 1 ≤ 0xFFF := by
  have hb : s.pc.getLsbD 0 = decide (s.pc.toNat % 2 = 1) := by
    simp [BitVec.getLsbD, Nat.testBit_zero]
  unfold fetchCheck fetchCheckWith
  rw [hw_addrMax, hw_oddPcFetch, hb]
  split
  · simp_all
  · split
    · simp; omega
    · split
      · simp; omega
      · simp_all

/-- A fetch at an odd PC. -/
theorem fetchCheck_odd (s : State) (h : s.pc.toNat % 2 = 1) :
    fetchCheck s = some ⟨.misalignedFetch, s.pc, s.ir, s.pc⟩ := by
  simp [fetchCheck, fetchCheckWith, BitVec.getLsbD, Nat.testBit_zero, h]

/-- A fetch at an even PC out of range. -/
theorem fetchCheck_high (s : State) (h : s.pc.toNat % 2 = 0) (hp : 0xFFF < s.pc.toNat) :
    fetchCheck s = some ⟨.outOfBoundsAccess, s.pc, s.ir, s.pc⟩ := by
  simp [fetchCheck, fetchCheckWith, BitVec.getLsbD, Nat.testBit_zero, h]; omega

end Sys2Proof.Machine
end

