-- ==== Sys2Proof/Laws/Engine.lean ====
section
/-! SUPPORT. The engine said once: which step the schedule chooses, and what an instruction step is
(40_engine.md R120, R128). -/

namespace Sys2Proof.Machine

theorem step_eq (s : State) : step s = nextStep s := rfl

/-- With nothing scheduled the core has its turn. -/
theorem step_unscheduled {s : State} (h : s.schedule = []) : step s = coreTurn s := by
  simp [step, nextStep, h]

/-- A scheduled instruction step is the core's turn with that entry taken off. -/
theorem step_instruction {s : State} {rest : List Event} (h : s.schedule = .instruction :: rest) :
    step s = coreTurn { s with schedule := rest } := by
  simp [step, nextStep, h]

/-- In a session that has not been shut down every input is admitted. -/
theorem admits_of_not_ended {s : State} (e : Event) (h : s.session ≠ .ended) : s.admits e = true := by
  unfold State.admits; split <;> simp_all

/-- A reset is admitted in every session, after a shutdown too (40_engine.md R120). -/
@[simp] theorem admits_reset (s : State) (image : List Byte) : s.admits (.reset image) = true := by
  unfold State.admits; split <;> simp_all

/-- After a shutdown nothing but a reset is admitted (40_engine.md R142). -/
theorem not_admits_of_ended {s : State} {e : Event} (h : s.session = .ended) (he : ∀ image, e ≠ .reset image) :
    s.admits e = false := by
  unfold State.admits; rw [h]; cases e <;> simp_all

/-- A scheduled input that is admitted is taken. -/
theorem step_admitted {s : State} {e : Event} {rest : List Event} (h : s.schedule = e :: rest)
    (he : e ≠ .instruction) (ha : s.admits e = true) :
    step s = .next (State.takeInput { s with schedule := rest } e) := by
  unfold step nextStep
  rw [h]
  cases e <;> simp_all

/-- A scheduled input of a session that has not been shut down is taken. -/
theorem step_input {s : State} {e : Event} {rest : List Event} (h : s.schedule = e :: rest)
    (he : e ≠ .instruction) (hs : s.session ≠ .ended) :
    step s = .next (State.takeInput { s with schedule := rest } e) :=
  step_admitted h he (admits_of_not_ended e hs)

/-- A scheduled reset is taken in every session (40_engine.md R120, 70_reset_and_hazards.md R340). -/
theorem step_reset {s : State} {image : List Byte} {rest : List Event} (h : s.schedule = .reset image :: rest) :
    step s = .next (State.resetWith { s with schedule := rest } image) :=
  step_admitted h (by simp) (admits_reset s image)

/-- After a shutdown every step but a reset is the named stop (40_engine.md R142). -/
theorem step_ended {s : State} (hs : s.session = .ended) (hr : ∀ image rest, s.schedule ≠ .reset image :: rest) :
    step s = .fault .sessionEnded := by
  unfold step nextStep
  split
  · simp [coreTurn, hs]
  · simp [coreTurn, hs]
  · rename_i e rest _ hsch
    rw [if_neg]
    rw [not_admits_of_ended hs (fun image he => hr image rest (by rw [hsch, he]))]
    simp

/-- The core's turn in RUNNING of an open session is an instruction step. -/
theorem coreTurn_running {s : State} (hl : s.session = .live) (hr : s.mode = .running) :
    coreTurn s = instructionStep s := by simp [coreTurn, hl, hr]

/-- An instruction step that fetches a supported word is the meaning of that word, on the state the fetch
left. -/
theorem instructionStep_of_decoded {s : State} {i : Instr} (hf : fetchCheck s = none)
    (hd : decodeWord s.wordAtPc = .ok i) : instructionStep s = exec i s.fetch := by
  simp [instructionStep, hf, executeIr, hd]

/-- An instruction step that fetches an unsupported word is the unsupported-word rule (40_engine.md R127). -/
theorem instructionStep_of_unsupported {s : State} {e : DecodeError} (hf : fetchCheck s = none)
    (hd : decodeWord s.wordAtPc = .error e) : instructionStep s = unsupported s.fetch := by
  simp [instructionStep, hf, executeIr, hd]

/-- An instruction step whose fetch faults enters FAULTED and changes nothing else (40_engine.md R122). -/
theorem instructionStep_of_fetch_fault {s : State} {f : FaultRecord} (hf : fetchCheck s = some f) :
    instructionStep s = .next (s.enterFault f) := by
  simp [instructionStep, hf]

end Sys2Proof.Machine
end

