-- ==== Sys2Proof/Laws/Events.lean ====
section
/-! SUPPORT. What the input operations do, said once: KEYS bit by bit, the timers as numbers, memory after a launch. -/

namespace Sys2Proof.Machine

/-- A down event sets bit k of KEYS and no other (40_engine.md R133). -/
theorem keysAfter_down (ks : BitVec 16) (k : Nib) (j : Nat) :
    (keysAfter ks k .down).getLsbD j = (ks.getLsbD j || decide (j = k.toNat)) := by
  have := k.isLt
  simp only [keysAfter, BitVec.getLsbD_or, BitVec.getLsbD_shiftLeft]
  by_cases hj : j = k.toNat
  · subst hj; simp [this]
  · simp [hj]
    intros; omega

/-- An up event clears bit k of KEYS and no other (40_engine.md R133). -/
theorem keysAfter_up (ks : BitVec 16) (k : Nib) (j : Nat) :
    (keysAfter ks k .up).getLsbD j = (ks.getLsbD j && !decide (j = k.toNat)) := by
  have := k.isLt
  by_cases hj16 : j < 16
  · simp only [keysAfter, BitVec.getLsbD_and, BitVec.getLsbD_not, BitVec.getLsbD_shiftLeft]
    by_cases hj : j = k.toNat
    · subst hj; simp
    · simp [hj, hj16]
      omega
  · simp [BitVec.getLsbD_of_ge _ j (show 16 ≤ j by omega)]

/-- A timer one tick later, as a number (40_engine.md R136). -/
theorem countDown_toNat (t : Byte) : (countDown t).toNat = t.toNat - 1 := by revert t; decide

/-- Memory after a launch is in canonical form. -/
theorem launch_mem_wf (image : List Byte) (h : image.length ≤ 0xE00) : Memory.wf (State.launch image).mem :=
  writeBytes_wf _ _ _ nil_wf (by simp; omega)

/-- Memory after a launch: the image from 0x200 on, the reset contents elsewhere (10_state.md R51). -/
theorem read_launch (image : List Byte) (h : image.length ≤ 0xE00) (a : Nat) :
    (State.launch image).readMem a =
      if 0x200 ≤ a ∧ a < 0x200 + image.length then image.getD (a - 0x200) 0 else resetByte a 
 := by
  show Memory.read (Memory.writeBytes [] hw.progBase image) a = _
  rw [read_writeBytes _ _ _ _ nil_wf (by simp; omega)]
  rfl

end Sys2Proof.Machine
end

