-- ==== Sys2Proof/Laws/Exec.lean ====
section
/-! SUPPORT. What exec can do, said once for all instructions: the fault an instruction raises, if any, and the state
it leaves otherwise. Later proofs split on this and do not unfold the meanings. -/

namespace Sys2Proof.Machine

/-- The fault that `i` raises in the execute part, with the address it records (60_exceptions.md R300). -/
def raisedBy (i : Instr) (s : State) : Option (FaultKind × Nat) :=
  match i with
  | .ret => if s.sp.val = 0 then some (.stackUnderflow, 0) else none
  | .call _ => if s.sp.val = 12 then some (.stackOverflow, 0) else none
  | .drw _ _ n => if n = 0 then none else (oob s.atI (n.toNat - 1)).map (.outOfBoundsAccess, ·)
  | .ldB _ => (oob s.atI 2).map (.outOfBoundsAccess, ·)
  | .ldMemVx x => (oob s.atI x.toNat).map (.outOfBoundsAccess, ·)
  | .ldVxMem x => (oob s.atI x.toNat).map (.outOfBoundsAccess, ·)
  | _ => none

/-- The state `i` leaves when it raises nothing. -/
def effect (i : Instr) (s : State) : State :=
  match i with
  | .cls => { s with fb := FrameBuffer.clear }
  | .ret => match s.pop with
    | some (w, t) => t.jump w
    | none => s
  | .jp nnn => s.jump (address nnn)
  | .call nnn => match s.push s.pc with
    | some t => t.jump (address nnn)
    | none => s
  | .seImm x nn => s.skipIf (s.readV x == nn)
  | .sneImm x nn => s.skipIf (s.readV x != nn)
  | .seReg x y _ => s.skipIf (s.readV x == s.readV y)
  | .sneReg x y _ => s.skipIf (s.readV x != s.readV y)
  | .ldImm x nn => s.writeV x nn
  | .addImm x nn => s.writeV x (sumByte (s.readV x) nn)
  | .ldReg x y => s.writeV x (s.readV y)
  | .orReg x y => s.writeV x (s.readV x ||| s.readV y)
  | .andReg x y => s.writeV x (s.readV x &&& s.readV y)
  | .xorReg x y => s.writeV x (s.readV x ^^^ s.readV y)
  | .addReg x y => s.writeResultAndFlag x (sumByte (s.readV x) (s.readV y)) (carryFlag (s.readV x) (s.readV y))
  | .subReg x y =>
    s.writeResultAndFlag x (diffByte (s.readV x) (s.readV y)) (noBorrowFlag (s.readV x) (s.readV y))
  | .shr x y =>
    s.writeResultAndFlag x (shiftRightByte (s.shiftOperand x y)) (lowBitFlag (s.shiftOperand x y))
  | .subnReg x y =>
    s.writeResultAndFlag x (diffByte (s.readV y) (s.readV x)) (noBorrowFlag (s.readV y) (s.readV x))
  | .shl x y =>
    s.writeResultAndFlag x (shiftLeftByte (s.shiftOperand x y)) (highBitFlag (s.shiftOperand x y))
  | .ldI nnn => { s with i := address nnn }
  | .jpV0 nnn => s.jump (address nnn + (s.readV 0).setWidth 16)
  | .rnd x nn => maskDraw (Config.randByte s.draws) x nn s
  | .drw x y n => s.showCanvas (s.drawn x y n)
  | .skp x => s.skipIf (s.keyDown x)
  | .sknp x => s.skipIf (!s.keyDown x)
  | .ldVxDt x => s.writeV x s.dt
  | .ldVxK x => s.suspend x
  | .ldDtVx x => { s with dt := s.readV x }
  | .ldStVx x => { s with st := s.readV x }
  | .addI x => { s with i := s.i + (s.readV x).setWidth 16 }
  | .ldF x => { s with i := s.glyphAddress x }
  | .ldB x => s.storeBytes s.atI (bcdDigits (s.readV x))
  | .ldMemVx x => s.storeBytes s.atI (s.regsUpTo x)
  | .ldVxMem x => s.loadRegs s.atI (x.toNat + 1)

/-- A checked access raises exactly when `oob` says so. -/
theorem checkedAccess_eq (a k : Nat) (s t : State) :
    checkedAccess a k s t = match (oob a k).map (FaultKind.outOfBoundsAccess, ·) with
      | some (kind, addr) => raise kind addr s
      | none => .next t := by
  unfold checkedAccess; cases oob a k <;> rfl

/-- Every instruction raises the fault `raisedBy` names, and otherwise leaves its effect. -/
theorem exec_eq (i : Instr) (s : State) :
    exec i s = match raisedBy i s with
      | some (kind, addr) => raise kind addr s
      | none => .next (effect i s) := by
  cases i
  case ret =>
    simp only [exec, execRet, raisedBy, effect]
    by_cases h : s.sp.val = 0
    · simp [(pop_eq_none_iff s).2 h, h]
    · simp [pop_of_pos s h, h]
  case call nnn =>
    simp only [exec, execCall, raisedBy, effect]
    by_cases h : s.sp.val = 12
    · simp [(push_eq_none_iff s s.pc).2 h, h]
    · simp [push_of_lt s s.pc (by omega), h]
  case drw x y n =>
    simp only [exec, execDrw, raisedBy, effect, checkedAccess_eq]
    split
    · rename_i h; subst h; rfl
    · rfl
  case ldB => exact checkedAccess_eq _ _ _ _
  case ldMemVx => exact checkedAccess_eq _ _ _ _
  case ldVxMem => exact checkedAccess_eq _ _ _ _
  all_goals rfl

/-- The two ways an instruction answers a next state: it raises a fault, or it leaves its effect. -/
theorem exec_next_cases {i : Instr} {s t : State} (h : exec i s = .next t) :
    (∃ kind addr, raisedBy i s = some (kind, addr) ∧
      t = s.enterFault ⟨kind, s.pc - 2, s.ir, BitVec.ofNat 16 addr⟩) ∨
    (raisedBy i s = none ∧ t = effect i s) := by
  rw [exec_eq] at h
  cases hr : raisedBy i s with
  | none => rw [hr] at h; cases h; exact .inr ⟨rfl, rfl⟩
  | some p => rw [hr] at h; cases h; exact .inl ⟨p.1, p.2, rfl, rfl⟩

/-- What DRW leaves in each register: VF is the collision, the others are untouched (44_display.md R264). -/
theorem readV_showCanvas (s : State) (c : Canvas) (q : Reg) :
    (s.showCanvas c).readV q = if q = 15 then flagByte c.collision else s.readV q :=
  readV_writeV _ 15 q _

/-- A flag is 0 or 1. -/
theorem flagByte_cases (b : Bool) : flagByte b = 0 ∨ flagByte b = 1 := by cases b <;> simp [flagByte]

/-- LD Vx,[I] writes registers only. -/
theorem loadRegs_eq (s : State) (a k : Nat) : s.loadRegs a k = { s with v := (s.loadRegs a k).v } := by
  induction k with
  | zero => rfl
  | succ k ih => rw [State.loadRegs]; conv => lhs; rw [ih]
                 rfl

/-- An effect leaves MODE alone, but for LD Vx, K, which suspends (40_engine.md R126). -/
theorem effect_mode (i : Instr) (s : State) : (effect i s).mode = s.mode ∨
    ∃ r, i = .ldVxK r ∧ (effect i s).mode = .awaitingKey r := by
  cases i <;> simp [effect, maskDraw, State.shiftOperand]
  · cases h : s.pop with
    | none => rfl
    | some p => unfold State.pop at h; split at h <;> simp at h; rw [← h]; rfl
  · cases h : s.push s.pc with
    | none => rfl
    | some p => unfold State.push at h; split at h <;> simp at h; rw [← h]; rfl

end Sys2Proof.Machine
end

