-- ==== Sys2Proof/Laws/PerInstr.lean ====
section
/-! SUPPORT. Per-instruction facts of syntax. Family RowMatch: the word an instruction encodes to has the
fixed bits of that instruction's row of spec/opcode_table.json (30_encoding.md R96). -/

namespace Sys2Proof.Laws.RowMatch

/-- The encoded word lies in the instruction's own row. -/
def Statement (i : Instr) : Prop := (opcodeRow i).matches (encodeWord i) = true

/-- Two words are equal when their sixteen bits are. -/
theorem word_ext (u v : Word) (h : ∀ i : Fin 16, u.getLsbD i.val = v.getLsbD i.val) : u = v :=
  BitVec.eq_of_getLsbD_eq fun i hi => h ⟨i, hi⟩

/-! A packed word under the table's masks F000, F0FF and F00F keeps its class and its sub-opcode. -/

theorem packNNN_mask (c : Nib) (a : Addr12) : packNNN c a &&& (0xF000 : Word) = c.setWidth 16 <<< 12 :=
  word_ext _ _ fun i => by fin_cases i <;> simp [packNNN]

theorem packXNN_mask (c : Nib) (x : Reg) (nn : Byte) :
    packXNN c x nn &&& (0xF000 : Word) = c.setWidth 16 <<< 12 :=
  word_ext _ _ fun i => by fin_cases i <;> simp [packXNN]

theorem packXNN_mask_sub (c : Nib) (x : Reg) (nn : Byte) :
    packXNN c x nn &&& (0xF0FF : Word) = c.setWidth 16 <<< 12 ||| nn.setWidth 16 :=
  word_ext _ _ fun i => by fin_cases i <;> simp [packXNN]

theorem packXYN_mask (c : Nib) (x y : Reg) (n : Nib) :
    packXYN c x y n &&& (0xF000 : Word) = c.setWidth 16 <<< 12 :=
  word_ext _ _ fun i => by fin_cases i <;> simp [packXYN]

theorem packXYN_mask_sub (c : Nib) (x y : Reg) (n : Nib) :
    packXYN c x y n &&& (0xF00F : Word) = c.setWidth 16 <<< 12 ||| n.setWidth 16 :=
  word_ext _ _ fun i => by fin_cases i <;> simp [packXYN]

theorem cls : Statement .cls := rfl
theorem ret : Statement .ret := rfl
theorem jp (nnn : Addr12) : Statement (.jp nnn) := by
  simp only [Statement, OpcodeRow.matches, opcodeRow, encodeWord, packNNN_mask]; rfl
theorem call (nnn : Addr12) : Statement (.call nnn) := by
  simp only [Statement, OpcodeRow.matches, opcodeRow, encodeWord, packNNN_mask]; rfl
theorem seImm (x : Reg) (nn : Byte) : Statement (.seImm x nn) := by
  simp only [Statement, OpcodeRow.matches, opcodeRow, encodeWord, packXNN_mask]; rfl
theorem sneImm (x : Reg) (nn : Byte) : Statement (.sneImm x nn) := by
  simp only [Statement, OpcodeRow.matches, opcodeRow, encodeWord, packXNN_mask]; rfl
theorem seReg (x : Reg) (y : Reg) (n : Nib) : Statement (.seReg x y n) := by
  simp only [Statement, OpcodeRow.matches, opcodeRow, encodeWord, packXYN_mask]; rfl
theorem ldImm (x : Reg) (nn : Byte) : Statement (.ldImm x nn) := by
  simp only [Statement, OpcodeRow.matches, opcodeRow, encodeWord, packXNN_mask]; rfl
theorem addImm (x : Reg) (nn : Byte) : Statement (.addImm x nn) := by
  simp only [Statement, OpcodeRow.matches, opcodeRow, encodeWord, packXNN_mask]; rfl
theorem ldReg (x : Reg) (y : Reg) : Statement (.ldReg x y) := by
  simp only [Statement, OpcodeRow.matches, opcodeRow, encodeWord, packXYN_mask_sub]; rfl
theorem orReg (x : Reg) (y : Reg) : Statement (.orReg x y) := by
  simp only [Statement, OpcodeRow.matches, opcodeRow, encodeWord, packXYN_mask_sub]; rfl
theorem andReg (x : Reg) (y : Reg) : Statement (.andReg x y) := by
  simp only [Statement, OpcodeRow.matches, opcodeRow, encodeWord, packXYN_mask_sub]; rfl
theorem xorReg (x : Reg) (y : Reg) : Statement (.xorReg x y) := by
  simp only [Statement, OpcodeRow.matches, opcodeRow, encodeWord, packXYN_mask_sub]; rfl
theorem addReg (x : Reg) (y : Reg) : Statement (.addReg x y) := by
  simp only [Statement, OpcodeRow.matches, opcodeRow, encodeWord, packXYN_mask_sub]; rfl
theorem subReg (x : Reg) (y : Reg) : Statement (.subReg x y) := by
  simp only [Statement, OpcodeRow.matches, opcodeRow, encodeWord, packXYN_mask_sub]; rfl
theorem shr (x : Reg) (y : Reg) : Statement (.shr x y) := by
  simp only [Statement, OpcodeRow.matches, opcodeRow, encodeWord, packXYN_mask_sub]; rfl
theorem subnReg (x : Reg) (y : Reg) : Statement (.subnReg x y) := by
  simp only [Statement, OpcodeRow.matches, opcodeRow, encodeWord, packXYN_mask_sub]; rfl
theorem shl (x : Reg) (y : Reg) : Statement (.shl x y) := by
  simp only [Statement, OpcodeRow.matches, opcodeRow, encodeWord, packXYN_mask_sub]; rfl
theorem sneReg (x : Reg) (y : Reg) (n : Nib) : Statement (.sneReg x y n) := by
  simp only [Statement, OpcodeRow.matches, opcodeRow, encodeWord, packXYN_mask]; rfl
theorem ldI (nnn : Addr12) : Statement (.ldI nnn) := by
  simp only [Statement, OpcodeRow.matches, opcodeRow, encodeWord, packNNN_mask]; rfl
theorem jpV0 (nnn : Addr12) : Statement (.jpV0 nnn) := by
  simp only [Statement, OpcodeRow.matches, opcodeRow, encodeWord, packNNN_mask]; rfl
theorem rnd (x : Reg) (nn : Byte) : Statement (.rnd x nn) := by
  simp only [Statement, OpcodeRow.matches, opcodeRow, encodeWord, packXNN_mask]; rfl
theorem drw (x : Reg) (y : Reg) (n : Nib) : Statement (.drw x y n) := by
  simp only [Statement, OpcodeRow.matches, opcodeRow, encodeWord, packXYN_mask]; rfl
theorem skp (x : Reg) : Statement (.skp x) := by
  simp only [Statement, OpcodeRow.matches, opcodeRow, encodeWord, packXNN_mask_sub]; rfl
theorem sknp (x : Reg) : Statement (.sknp x) := by
  simp only [Statement, OpcodeRow.matches, opcodeRow, encodeWord, packXNN_mask_sub]; rfl
theorem ldVxDt (x : Reg) : Statement (.ldVxDt x) := by
  simp only [Statement, OpcodeRow.matches, opcodeRow, encodeWord, packXNN_mask_sub]; rfl
theorem ldVxK (x : Reg) : Statement (.ldVxK x) := by
  simp only [Statement, OpcodeRow.matches, opcodeRow, encodeWord, packXNN_mask_sub]; rfl
theorem ldDtVx (x : Reg) : Statement (.ldDtVx x) := by
  simp only [Statement, OpcodeRow.matches, opcodeRow, encodeWord, packXNN_mask_sub]; rfl
theorem ldStVx (x : Reg) : Statement (.ldStVx x) := by
  simp only [Statement, OpcodeRow.matches, opcodeRow, encodeWord, packXNN_mask_sub]; rfl
theorem addI (x : Reg) : Statement (.addI x) := by
  simp only [Statement, OpcodeRow.matches, opcodeRow, encodeWord, packXNN_mask_sub]; rfl
theorem ldF (x : Reg) : Statement (.ldF x) := by
  simp only [Statement, OpcodeRow.matches, opcodeRow, encodeWord, packXNN_mask_sub]; rfl
theorem ldB (x : Reg) : Statement (.ldB x) := by
  simp only [Statement, OpcodeRow.matches, opcodeRow, encodeWord, packXNN_mask_sub]; rfl
theorem ldMemVx (x : Reg) : Statement (.ldMemVx x) := by
  simp only [Statement, OpcodeRow.matches, opcodeRow, encodeWord, packXNN_mask_sub]; rfl
theorem ldVxMem (x : Reg) : Statement (.ldVxMem x) := by
  simp only [Statement, OpcodeRow.matches, opcodeRow, encodeWord, packXNN_mask_sub]; rfl

end Sys2Proof.Laws.RowMatch
end

