-- ==== Sys2Proof/Laws/Run.lean ====
section
/-! SUPPORT. Runs under a platform (40_engine.md R120, R148): what one step of a run is, and what the tick duty gives. -/

namespace Sys2Proof.Machine

/-- A step of a run that is an input: the input is taken. -/
theorem isRun_input {platform : Nat → Event} {run : Nat → State} (h : IsRun platform run) (n : Nat)
    (ha : (run n).admits (platform n) = true) (he : platform n ≠ .instruction) :
    run (n + 1) = State.takeInput { run n with schedule := [] } (platform n) := by
  have e := step_admitted (s := { run n with schedule := [platform n] }) (rest := []) rfl he ha
  exact Host.Outcome.next.inj ((h n).symm.trans e)

/-- A step of a run that is an instruction step: the core's turn. -/
theorem isRun_instruction {platform : Nat → Event} {run : Nat → State} (h : IsRun platform run) (n : Nat)
    (he : platform n = .instruction) : coreTurn { run n with schedule := [] } = .next (run (n + 1)) := by
  have e := step_instruction (s := { run n with schedule := [platform n] }) (rest := []) (by rw [he])
  exact e.symm.trans (h n)

/-- The tick count of a platform never falls. -/
theorem ticksBefore_mono (platform : Nat → Event) (n d : Nat) :
    ticksBefore platform n ≤ ticksBefore platform (n + d) := by
  induction d with
  | zero => exact Nat.le_refl _
  | succ d ih => exact Nat.le_trans ih (Nat.le_add_right _ _)

/-- Under the tick duty another tick always comes (R138, R146). -/
theorem hostTicks_another {platform : Nat → Event} (h : hostTicks platform) (n : Nat) :
    ∃ m, n ≤ m ∧ platform m = .tick := by
  obtain ⟨clock, hc⟩ := h
  obtain ⟨p, hp⟩ := hc.clock_unbounded (ticksBefore platform n + 1)
  obtain ⟨m, hm⟩ := hc.delivered p
  suffices hs : ∀ d, ticksBefore platform n < ticksBefore platform (n + d) → ∃ k, n ≤ k ∧ platform k = .tick by
    by_cases hnm : n ≤ m
    · obtain ⟨d, rfl⟩ := Nat.exists_eq_add_of_le hnm
      exact hs d (by omega)
    · obtain ⟨d, rfl⟩ := Nat.exists_eq_add_of_le (Nat.le_of_lt (Nat.lt_of_not_le hnm))
      have := ticksBefore_mono platform m d
      omega
  intro d
  induction d with
  | zero => intro h; exact absurd h (Nat.lt_irrefl _)
  | succ d ih =>
    intro h
    by_cases ht : platform (n + d) = .tick
    · exact ⟨n + d, Nat.le_add_right _ _, ht⟩
    · exact ih (by simpa [← Nat.add_assoc, ticksBefore, ht] using h)

end Sys2Proof.Machine
end

