-- ==== Sys2Proof/Machine/Assembly.lean ====
section
/-! DEFINITION. The assembler spelling of an instruction (30_encoding.md R110; from general knowledge, the spec's
decision D34). No operation of the core reads it. -/

namespace Sys2Proof.Machine

/-- A hexadecimal digit, upper case. -/
def hexDigit (d : Nat) : String :=
  (["0", "1", "2", "3", "4", "5", "6", "7", "8", "9", "A", "B", "C", "D", "E", "F"]).getD d "?"

/-- `V0` .. `VF`. -/
def regText (r : Reg) : String := "V" ++ hexDigit r.toNat

/-- A byte as `0x..`. -/
def byteText (b : Byte) : String := "0x" ++ hexDigit (b.toNat / 16) ++ hexDigit (b.toNat % 16)

/-- An address as `0x...`. -/
def addrText (a : Addr12) : String :=
  "0x" ++ hexDigit (a.toNat / 256) ++ hexDigit (a.toNat / 16 % 16) ++ hexDigit (a.toNat % 16)

/-- A nibble as `0x.`. -/
def nibText (n : Nib) : String := "0x" ++ hexDigit n.toNat

/-- A mnemonic and two operands. -/
def twoText (mnemonic a b : String) : String := mnemonic ++ " " ++ a ++ ", " ++ b

/-- The spelling of an instruction, in the forms of the mnemonic column of 30_encoding.md R96. -/
def instrText : Instr → String
  | .cls => "CLS"
  | .ret => "RET"
  | .jp nnn => "JP " ++ addrText nnn
  | .call nnn => "CALL " ++ addrText nnn
  | .seImm x nn => twoText "SE" (regText x) (byteText nn)
  | .sneImm x nn => twoText "SNE" (regText x) (byteText nn)
  | .seReg x y _ => twoText "SE" (regText x) (regText y)
  | .ldImm x nn => twoText "LD" (regText x) (byteText nn)
  | .addImm x nn => twoText "ADD" (regText x) (byteText nn)
  | .ldReg x y => twoText "LD" (regText x) (regText y)
  | .orReg x y => twoText "OR" (regText x) (regText y)
  | .andReg x y => twoText "AND" (regText x) (regText y)
  | .xorReg x y => twoText "XOR" (regText x) (regText y)
  | .addReg x y => twoText "ADD" (regText x) (regText y)
  | .subReg x y => twoText "SUB" (regText x) (regText y)
  | .shr x y => twoText "SHR" (regText x) (regText y)
  | .subnReg x y => twoText "SUBN" (regText x) (regText y)
  | .shl x y => twoText "SHL" (regText x) (regText y)
  | .sneReg x y _ => twoText "SNE" (regText x) (regText y)
  | .ldI nnn => twoText "LD" "I" (addrText nnn)
  | .jpV0 nnn => twoText "JP" "V0" (addrText nnn)
  | .rnd x nn => twoText "RND" (regText x) (byteText nn)
  | .drw x y n => twoText "DRW" (regText x) (regText y) ++ ", " ++ nibText n
  | .skp x => "SKP " ++ regText x
  | .sknp x => "SKNP " ++ regText x
  | .ldVxDt x => twoText "LD" (regText x) "DT"
  | .ldVxK x => twoText "LD" (regText x) "K"
  | .ldDtVx x => twoText "LD" "DT" (regText x)
  | .ldStVx x => twoText "LD" "ST" (regText x)
  | .addI x => twoText "ADD" "I" (regText x)
  | .ldF x => twoText "LD" "F" (regText x)
  | .ldB x => twoText "LD" "B" (regText x)
  | .ldMemVx x => twoText "LD" "[I]" (regText x)
  | .ldVxMem x => twoText "LD" (regText x) "[I]"

end Sys2Proof.Machine
end

