-- ==== Sys2Proof/Tests/Slice0.lean ====
section
/-! SUPPORT. Tests of the model. Every expected value is from the spec: the encodings of 30_encoding.md R96, the
vectors of 95_test_vectors.md (named by section), or an instruction rule's own example. -/

namespace Sys2Proof.Tests

open Sys2Proof.Machine

/-! ### Well-formedness: each check refuses an ill-formed term (30_encoding.md R97) -/

theorem test_wf_refuses_se_low_nibble : Instr.wfWith true (.seReg 1 2 3) = false := by decide
theorem test_wf_refuses_sne_low_nibble : Instr.wfWith true (.sneReg 1 2 3) = false := by decide
theorem test_wf_accepts_when_not_strict : Instr.wf (.seReg 1 2 3) = true := by decide

/-! ### Decoding: one word per constructor, written out from R96 -/

theorem test_decode_cls : decodeTableWord 16 0x00E0 = some .cls := by decide
theorem test_decode_ret : decodeTableWord 16 0x00EE = some .ret := by decide
theorem test_decode_jp : decodeTableWord 16 0x1208 = some (.jp 0x208) := by decide
theorem test_decode_call : decodeTableWord 16 0x2210 = some (.call 0x210) := by decide
theorem test_decode_seImm : decodeTableWord 16 0x3F0A = some (.seImm 15 0x0A) := by decide
theorem test_decode_sneImm : decodeTableWord 16 0x4301 = some (.sneImm 3 1) := by decide
theorem test_decode_seReg : decodeTableWord 16 0x5123 = some (.seReg 1 2 3) := by decide
theorem test_decode_ldImm : decodeTableWord 16 0x6005 = some (.ldImm 0 5) := by decide
theorem test_decode_addImm : decodeTableWord 16 0x7A01 = some (.addImm 10 1) := by decide
theorem test_decode_ldReg : decodeTableWord 16 0x8120 = some (.ldReg 1 2) := by decide
theorem test_decode_orReg : decodeTableWord 16 0x8121 = some (.orReg 1 2) := by decide
theorem test_decode_andReg : decodeTableWord 16 0x8122 = some (.andReg 1 2) := by decide
theorem test_decode_xorReg : decodeTableWord 16 0x8123 = some (.xorReg 1 2) := by decide
theorem test_decode_addReg : decodeTableWord 16 0x8014 = some (.addReg 0 1) := by decide
theorem test_decode_subReg : decodeTableWord 16 0x8125 = some (.subReg 1 2) := by decide
theorem test_decode_shr : decodeTableWord 16 0x8306 = some (.shr 3 0) := by decide
theorem test_decode_subnReg : decodeTableWord 16 0x8127 = some (.subnReg 1 2) := by decide
theorem test_decode_shl : decodeTableWord 16 0x830E = some (.shl 3 0) := by decide
theorem test_decode_sneReg : decodeTableWord 16 0x912F = some (.sneReg 1 2 15) := by decide
theorem test_decode_ldI : decodeTableWord 16 0xA300 = some (.ldI 0x300) := by decide
theorem test_decode_jpV0 : decodeTableWord 16 0xBFFF = some (.jpV0 0xFFF) := by decide
theorem test_decode_rnd : decodeTableWord 16 0xC00F = some (.rnd 0 0x0F) := by decide
theorem test_decode_drw : decodeTableWord 16 0xD125 = some (.drw 1 2 5) := by decide
theorem test_decode_skp : decodeTableWord 16 0xE59E = some (.skp 5) := by decide
theorem test_decode_sknp : decodeTableWord 16 0xE0A1 = some (.sknp 0) := by decide
theorem test_decode_ldVxDt : decodeTableWord 16 0xF307 = some (.ldVxDt 3) := by decide
theorem test_decode_ldVxK : decodeTableWord 16 0xF00A = some (.ldVxK 0) := by decide
theorem test_decode_ldDtVx : decodeTableWord 16 0xF015 = some (.ldDtVx 0) := by decide
theorem test_decode_ldStVx : decodeTableWord 16 0xF118 = some (.ldStVx 1) := by decide
theorem test_decode_addI : decodeTableWord 16 0xF21E = some (.addI 2) := by decide
theorem test_decode_ldF : decodeTableWord 16 0xF029 = some (.ldF 0) := by decide
theorem test_decode_ldB : decodeTableWord 16 0xF033 = some (.ldB 0) := by decide
theorem test_decode_ldMemVx : decodeTableWord 16 0xF155 = some (.ldMemVx 1) := by decide
theorem test_decode_ldVxMem : decodeTableWord 16 0xF265 = some (.ldVxMem 2) := by decide

/-- Unsupported words of each class (R97; 95 section 2.1). -/
theorem test_decode_unsupported :
    [0x0000, 0x8008, 0x800F, 0xE000, 0xF000, 0xF0FF].map (decodeTableWord 16) =
      [none, none, none, none, none, none] := by decide

/-- STRICT_5_9 = true makes 5123 unsupported (95 section 2.1). -/
theorem test_decode_strict : decodeWordWith true 0x5123 = .error (.unsupported 0x5123) := by decide

theorem test_decode_truncated : decode [0x60] = .error .truncated := by decide

/-- The spellings of 30_encoding.md R110 and R96. -/
theorem test_text : [Instr.jpV0 0x300, .drw 1 2 5, .ldMemVx 15, .shr 3 0, .addImm 10 1].map instrText =
    ["JP V0, 0x300", "DRW V1, V2, 0x5", "LD [I], VF", "SHR V3, V0", "ADD VA, 0x01"] := by decide

/-! ### One step of one word -/

/-- Does the answer have a next state, and does it pass the check? -/
def nextIs (r : Result) (p : State → Bool) : Bool :=
  match r with
  | .next s => p s
  | _ => false

/-- One step of the word `w` placed at PC. -/
def stepWord (s : State) (w : Nat) : Result := step (s.withFetchWord 16 w)

/-- Reset with V0, V1, V2 and VF set. -/
def regs (a b c f : Byte) : State :=
  (((State.reset.writeV 0 a).writeV 1 b).writeV 2 c).writeV 15 f

/-- A state at PC = `pc`. -/
def at_ (pc : Word) (s : State) : State := s.jump pc

/-- V0 and VF after the step. -/
def v0f (s : State) : Byte × Byte := (s.readV 0, s.readV 15)

-- 95 section 1.1 and 1.2
theorem test_add_carry : nextIs (stepWord (regs 0xFF 1 0 7) 0x8014) (fun s => v0f s == (0, 1)) = true := by decide
theorem test_add_no_carry : nextIs (stepWord (regs 0x7F 1 0 7) 0x8014) (fun s => v0f s == (0x80, 0)) = true := by
  decide
theorem test_sub_borrow : nextIs (stepWord (regs 5 7 0 7) 0x8015) (fun s => v0f s == (0xFE, 0)) = true := by decide
theorem test_sub_equal : nextIs (stepWord (regs 5 5 0 7) 0x8015) (fun s => v0f s == (0, 1)) = true := by decide

-- 95 section 2.3
theorem test_ldImm_vf : nextIs (stepWord State.reset 0x6F12) (fun s => s.readV 15 == 0x12) = true := by decide
theorem test_addImm_no_flag : nextIs (stepWord (regs 0xFF 0 0 0x77) 0x7001) (fun s => v0f s == (0, 0x77)) = true := by
  decide
theorem test_ldReg : nextIs (stepWord (regs 0 0 0x7F 0) 0x8120) (fun s => s.readV 1 == 0x7F) = true := by decide
theorem test_or : nextIs (stepWord (regs 0x0F 0xF0 0 0x55) 0x8011) (fun s => v0f s == (0xFF, 0x55)) = true := by
  decide
theorem test_and : nextIs (stepWord (regs 0x3C 0x0F 0 0x55) 0x8012) (fun s => v0f s == (0x0C, 0x55)) = true := by
  decide
theorem test_xor : nextIs (stepWord (regs 0xFF 0x0F 0 0x55) 0x8013) (fun s => v0f s == (0xF0, 0x55)) = true := by
  decide
theorem test_add_x_is_vf : nextIs (stepWord (regs 0 1 0 0xFF) 0x8F14) (fun s => s.readV 15 == 1) = true := by decide
theorem test_sub_y_is_vf : nextIs (stepWord (regs 0x10 0 0 1) 0x80F5) (fun s => v0f s == (0x0F, 1)) = true := by
  decide
theorem test_subn : nextIs (stepWord (regs 5 7 0 9) 0x8017) (fun s => v0f s == (2, 1)) = true := by decide
theorem test_subn_borrow : nextIs (stepWord (regs 7 5 0 9) 0x8017) (fun s => v0f s == (0xFE, 0)) = true := by decide
theorem test_shr_ignores_vy : nextIs (stepWord (regs 4 0xFF 0 9) 0x8016) (fun s => v0f s == (2, 0)) = true := by
  decide
theorem test_shr_vf : nextIs (stepWord (regs 0 0 0 3) 0x8F06) (fun s => s.readV 15 == 1) = true := by decide
/-- SHIFT_SOURCE = vy (95 section 2.3). -/
theorem test_shr_source_vy :
    nextIs (execShrWith .vy 0 1 (regs 4 0xFF 0 9)) (fun s => v0f s == (0x7F, 1)) = true := by decide
theorem test_shl : nextIs (stepWord (regs 0x80 0 0 9) 0x800E) (fun s => v0f s == (0, 1)) = true := by decide
theorem test_shl_vf : nextIs (stepWord (regs 0 0 0 0x40) 0x8F0E) (fun s => s.readV 15 == 0) = true := by decide
/-- rand = 0xA7, `C0 0F` (42_alu.md R210). -/
theorem test_rnd_mask : (maskDraw 0xA7 0 0x0F State.reset).readV 0 = 0x07 := by decide
/-- `C3 00` gives 0x00 whatever the draw (95 section 2.3). -/
theorem test_rnd_zero_mask (r : Byte) : (maskDraw r 3 0 State.reset).readV 3 = 0 := by
  simp [maskDraw, State.readV, State.writeV]

-- 95 section 2.2
theorem test_ret_underflow : nextIs (stepWord State.reset 0x00EE) (fun s =>
    s.mode == .faulted ⟨.stackUnderflow, 0x200, 0x00EE, 0⟩ && s.pc == 0x202 && s.sp == 0) = true := by decide
/-- SP = 1, STACK[0] = `w`, at 0x212. -/
def depth1 (w : Word) : State := { at_ 0x212 State.reset with sp := 1, stack := State.reset.stack.set 0 w }
theorem test_ret : nextIs (stepWord (depth1 0x206) 0x00EE) (fun s =>
    s.pc == 0x206 && s.sp == 0 && s.stack[0] == 0x206) = true := by decide
theorem test_jp : nextIs (stepWord State.reset 0x1208) (fun s => s.pc == 0x208) = true := by decide
theorem test_call : nextIs (stepWord (at_ 0x204 State.reset) 0x2210) (fun s =>
    s.pc == 0x210 && s.sp == 1 && s.stack[0] == 0x206) = true := by decide
theorem test_call_overflow : nextIs (stepWord { State.reset with sp := 12 } 0x2210) (fun s =>
    s.mode == .faulted ⟨.stackOverflow, 0x200, 0x2210, 0⟩ && s.pc == 0x202 && s.sp == 12 &&
      s.stack == State.reset.stack) = true := by decide
theorem test_jpV0 : nextIs (stepWord (regs 0xFF 0 0 0) 0xBFFF) (fun s => s.pc == 0x10FE) = true := by decide
theorem test_se_taken : nextIs (stepWord (at_ 0x204 (regs 10 0 0 0)) 0x300A) (fun s => s.pc == 0x208) = true := by
  decide
theorem test_se_not_taken : nextIs (stepWord (at_ 0x204 (regs 9 0 0 0)) 0x300A) (fun s => s.pc == 0x206) = true := by
  decide
theorem test_sne_taken : nextIs (stepWord State.reset 0x4301) (fun s => s.pc == 0x204) = true := by decide
theorem test_seReg_low_nibble : nextIs (stepWord (regs 0 3 3 0) 0x5123) (fun s => s.pc == 0x204) = true := by decide
theorem test_sneReg_same : nextIs (stepWord (regs 0 3 3 0) 0x9110) (fun s => s.pc == 0x202) = true := by decide
theorem test_sneReg : nextIs (stepWord (regs 0 1 2 0) 0x9120) (fun s => s.pc == 0x204) = true := by decide

-- 95 section 2.1
theorem test_odd_fetch : nextIs (step { State.reset with pc := 0x201, ir := 0x1201 }) (fun s =>
    s.mode == .faulted ⟨.misalignedFetch, 0x201, 0x1201, 0x201⟩ && s.pc == 0x201 && s.ir == 0x1201) = true := by
  decide
theorem test_high_fetch : nextIs (step { State.reset with pc := 0x1000 }) (fun s =>
    s.mode == .faulted ⟨.outOfBoundsAccess, 0x1000, 0, 0x1000⟩ && s.pc == 0x1000) = true := by decide
/-- ODD_PC_FETCH = allow: the second byte is out of range (95 section 2.1). -/
theorem test_odd_fetch_allowed : fetchCheckWith .allow { State.reset with pc := 0xFFF, ir := 0x1FFF } =
    some ⟨.outOfBoundsAccess, 0xFFF, 0x1FFF, 0x1000⟩ := by decide
theorem test_last_word : nextIs (stepWord (at_ 0xFFE State.reset) 0x1FFE) (fun s => s.pc == 0xFFE) = true := by decide
theorem test_unsupported_reports : nextIs (stepWord State.reset 0x8008) (fun s =>
    s.reports == [⟨0x200, 0x8008⟩] && s.pc == 0x202 && s.v == State.reset.v) = true := by decide
/-- UNSUPPORTED_POLICY = fault (95 section 2.1). -/
theorem test_unsupported_faults : nextIs (unsupportedWith .fault { State.reset with pc := 0x202 }) (fun s =>
    s.mode == .faulted ⟨.unsupportedInstruction, 0x200, 0, 0⟩) = true := by decide

-- 95 section 2.4
theorem test_ldI : nextIs (stepWord State.reset 0xAFFF) (fun s => s.i == 0xFFF) = true := by decide
theorem test_addI_past_end : nextIs (stepWord { regs 1 0 0 0 with i := 0xFFF } 0xF01E) (fun s =>
    s.i == 0x1000 && s.readV 15 == 0) = true := by decide
theorem test_addI_wraps : nextIs (stepWord { regs 1 0 0 0 with i := 0xFFFF } 0xF01E) (fun s => s.i == 0) = true := by
  decide
theorem test_ldF_low_nibble : nextIs (stepWord (regs 0x1A 0 0 0) 0xF029) (fun s => s.i == 0x32) = true := by decide
theorem test_ldB : nextIs (stepWord { regs 254 0 0 0 with i := 0xFFD } 0xF033) (fun s =>
    [s.readMem 0xFFD, s.readMem 0xFFE, s.readMem 0xFFF] == [2, 5, 4] && s.i == 0xFFD) = true := by decide
theorem test_ldB_out : nextIs (stepWord { State.reset with i := 0xFFE } 0xF033) (fun s =>
    s.mode == .faulted ⟨.outOfBoundsAccess, 0x200, 0xF033, 0x1000⟩ && s.readMem 0xFFE == 0 && s.pc == 0x202) = true := by
  decide
theorem test_store : nextIs (stepWord { regs 0x11 0x22 0x33 0 with i := 0x400 } 0xF155) (fun s =>
    [s.readMem 0x400, s.readMem 0x401, s.readMem 0x402] == [0x11, 0x22, 0] && s.i == 0x400) = true := by decide
theorem test_store_font : nextIs (stepWord (regs 0xFF 0 0 0) 0xF055) (fun s =>
    s.readMem 0 == 0xFF && s.readMem 1 == 0x90) = true := by decide
theorem test_load : nextIs (stepWord ({ regs 9 9 9 9 with i := 0x300 }.storeBytes 0x300 [2, 5, 4]) 0xF165) (fun s =>
    [s.readV 0, s.readV 1, s.readV 2, s.readV 15] == [2, 5, 9, 9] && s.i == 0x300) = true := by decide
theorem test_load_out : nextIs (stepWord { regs 9 9 9 9 with i := 0xFFE } 0xF265) (fun s =>
    s.mode == .faulted ⟨.outOfBoundsAccess, 0x200, 0xF265, 0x1000⟩ && s.v == (regs 9 9 9 9).v) = true := by decide

-- 95 section 2.5
/-- The lit pixels among the first rows and columns. -/
def lit (s : State) (rows cols : Nat) : List (Nat × Nat) :=
  (List.range rows).flatMap fun y => (List.range cols).filterMap fun x =>
    if FrameBuffer.pixel s.fb y x then some (y, x) else none

theorem test_cls : nextIs (stepWord { regs 0 0 0 0x33 with fb := FrameBuffer.flip State.reset.fb 3 7 } 0x00E0)
    (fun s => FrameBuffer.pixel s.fb 3 7 == false && s.readV 15 == 0x33) = true := by decide
/-- Glyph A at (0, 0). -/
theorem test_drw_glyph : nextIs (stepWord { State.reset with i := 0x32 } 0xD125) (fun s =>
    lit s 3 9 == [(0, 0), (0, 1), (0, 2), (0, 3), (1, 0), (1, 3), (2, 0), (2, 1), (2, 2), (2, 3)] &&
      s.readV 15 == 0) = true := by decide
/-- FB[0][62..63] = 1, V1 = 62: two pixels cleared, the rest off screen. -/
theorem test_drw_clip_collide : nextIs (stepWord
    ({ regs 0 62 0 0 with
        i := 0x300
        fb := FrameBuffer.flip (FrameBuffer.flip State.reset.fb 0 62) 0 63 }.storeBytes 0x300 [0xFF]) 0xD121)
    (fun s => s.readV 15 == 1 && FrameBuffer.pixel s.fb 0 62 == false && FrameBuffer.pixel s.fb 0 0 == false) =
      true := by decide
theorem test_drw_zero_rows : nextIs (stepWord { regs 0 0 0 0x55 with i := 0xFFFF } 0xD120) (fun s =>
    s.mode == .running && s.readV 15 == 0) = true := by decide
theorem test_drw_clipped_rows_checked : nextIs (stepWord { regs 0 0 31 0x55 with i := 0xFFC } 0xD125) (fun s =>
    s.mode == .faulted ⟨.outOfBoundsAccess, 0x200, 0xD125, 0x1000⟩ && s.readV 15 == 0x55) = true := by decide
theorem test_fbOut_index : (State.fbOut { State.reset with fb := FrameBuffer.flip State.reset.fb 1 2 }).map
    (fun b => b.getD 66 9) = some 1 := by decide

-- 95 section 2.6 and 1.6
theorem test_skp : nextIs (stepWord { at_ 0x204 (regs 0x37 0 0 0) with keys := 0x80 } 0xE09E) (fun s =>
    s.pc == 0x208) = true := by decide
theorem test_sknp_no_skip : nextIs (stepWord { at_ 0x204 (regs 0x0F 0 0 0) with keys := 0x8000 } 0xE0A1) (fun s =>
    s.pc == 0x206) = true := by decide
theorem test_sknp : nextIs (stepWord (at_ 0x204 (regs 7 0 0 0)) 0xE0A1) (fun s => s.pc == 0x208) = true := by decide
theorem test_ldVxDt : nextIs (stepWord { State.reset with dt := 0x2A } 0xF307) (fun s => s.readV 3 == 0x2A) = true := by
  decide
theorem test_ldDtVx : nextIs (stepWord (regs 3 0 0 0) 0xF015) (fun s => s.dt == 3 && s.st == 0) = true := by decide
theorem test_ldStVx : nextIs (stepWord (regs 0 0x10 0 0) 0xF118) (fun s => s.st == 16 && s.dt == 0) = true := by decide
theorem test_wait : nextIs (stepWord { State.reset with keys := 8 } 0xF00A) (fun s =>
    s.mode == .awaitingKey 0 && s.pc == 0x202 && s.ir == 0xF00A) = true := by decide

/-- A state whose next step is the event. -/
def upcoming (e : Event) (s : State) : State := { s with schedule := [e] }

theorem test_key_ends_wait : nextIs (step (upcoming (.key 0xE .down) { State.reset with mode := .awaitingKey 15 }))
    (fun s => s.readV 15 == 0x0E && s.keys == 0x4000 && s.mode == .running) = true := by decide
theorem test_key_up_while_waiting : nextIs (step (upcoming (.key 2 .up)
    { State.reset with mode := .awaitingKey 5, keys := 0x0C })) (fun s =>
      s.keys == 8 && s.mode == .awaitingKey 5) = true := by decide
theorem test_key_running : nextIs (step (upcoming (.key 3 .down) State.reset)) (fun s =>
    s.keys == 8 && s.v == State.reset.v) = true := by decide
theorem test_tick : nextIs (step (upcoming .tick { State.reset with dt := 0, st := 5 })) (fun s =>
    s.dt == 0 && s.st == 4) = true := by decide
/-- FAULTED with DT = 5: a tick changes nothing (95 section 2.1). -/
theorem test_tick_faulted : nextIs (step (upcoming .tick
    { State.reset with mode := .faulted ⟨.stackOverflow, 0, 0, 0⟩, dt := 5 })) (fun s => s.dt == 5) = true := by decide
theorem test_reset_event : nextIs (step (upcoming (.reset [0x60, 0x05]) (regs 9 9 9 9))) (fun s =>
    s.v == State.reset.v && [s.readMem 0x200, s.readMem 0x201, s.readMem 0x4B] == [0x60, 5, 0xF0]) = true := by decide

/-- The memory after reset is in canonical form, and so is it after a launch. -/
theorem test_reset_mem_wf : Memory.wf State.reset.mem := by decide
theorem test_launch_mem_wf : Memory.wf (State.launch [0xF0, 0x00, 0x0A]).mem := by decide

/-! ### The step by itself: the word at PC runs first after reset -/

theorem test_step_after_reset : nextIs (step (State.reset.withFetchWord 16 0x6103)) (fun s =>
    s.readV 1 == 3 && s.ir == 0x6103 && s.pc == 0x202) = true := by decide

/-! ### Witnesses: for each obligation with hypotheses, a concrete state and operands that meet them together, at
the boundary values of their ranges. None is an expected value of the machine. -/

open Sys2Proof.Claims

/-- At PC = `pc` with the bytes of `w` there. -/
def placed (pc w : Word) (s : State) : State := (at_ pc s).storeBytes pc.toNat [hiByte w, loByte w]

/-- Waiting for a key for V5. -/
def waiting (sch : List Event) : State := { State.reset with mode := .awaitingKey 5, ir := 0xF50A, schedule := sch }

/-- Stopped by a StackUnderflow at 0x200. -/
def stopped (sch : List Event) : State :=
  { State.reset with mode := .faulted ⟨.stackUnderflow, 0x200, 0x00EE, 0⟩, ir := 0x00EE, pc := 0x202, schedule := sch }

theorem witness_decode_encode : (Instr.seReg 15 15 15).wf = true ∧ Instr.wfWith true (.sneReg 15 15 0) = true ∧
    Instr.wfWith true (.drw 15 15 15) = true := by decide

theorem witness_encode_decode : decodeWordWith false 0x9FFF = .ok (.sneReg 15 15 15) ∧
    decodeWordWith true 0xFF65 = .ok (.ldVxMem 15) := by decide

theorem witness_table : decodeWord 0xF065 = .ok (.ldVxMem 0) ∧ (opcodeRow (.ldVxMem 3)).matches 0xF065 = true ∧
    (opcodeRow (.ldVxMem 4)).matches 0xF065 = true := by decide

theorem witness_supported : decodeWordWith true 0x5FF0 ≠ .error (.unsupported 0x5FF0) ∧
    decodeWordWith false 0x800E ≠ .error (.unsupported 0x800E) := by decide

theorem witness_fetch : ∃ (s t : State) (f : FaultRecord), s.session = .live ∧ s.mode = .running ∧ s.pc.toNat % 2 = 0 ∧ s.pc.toNat = 0xFFE ∧
    executeIr s.fetch = .next t ∧ t.mode = .faulted f :=
  ⟨placed 0xFFE 0x00EE State.reset, _, _, rfl, rfl, rfl, rfl, rfl, rfl⟩

theorem witness_step : CoreTurn (placed 0xFFE 0x6105 State.reset) [] ∧
    decode (bytesAtPc (placed 0xFFE 0x6105 State.reset)) = .ok (.ldImm 1 5, []) ∧
    (placed 0xFFE 0x6105 State.reset).pc.toNat = 0xFFE :=
  ⟨⟨rfl, rfl, .inl ⟨rfl, rfl⟩⟩, by decide, rfl⟩

theorem witness_step_scheduled : CoreTurn { placed 0x200 0x6105 State.reset with schedule := [.instruction, .tick] }
    [.tick] := ⟨rfl, rfl, .inr rfl⟩

theorem witness_unsupported : CoreTurn (placed 0xFFE 0x8008 State.reset) [] ∧
    decode (bytesAtPc (placed 0xFFE 0x8008 State.reset)) = .error (.unsupported 0x8008) :=
  ⟨⟨rfl, rfl, .inl ⟨rfl, rfl⟩⟩, by decide⟩

theorem witness_bad_fetch : (∀ p, CoreTurn (at_ p State.reset) [] ∧ (at_ p State.reset).pc = p) ∧
    (0x001 : Word).toNat % 2 = 1 ∧ (0xFFF : Word).toNat % 2 = 1 ∧ (0xFFFF : Word).toNat % 2 = 1 ∧
    ((0x1000 : Word).toNat % 2 = 0 ∧ 0xFFF < (0x1000 : Word).toNat) ∧
    ((0xFFFE : Word).toNat % 2 = 0 ∧ 0xFFF < (0xFFFE : Word).toNat) :=
  ⟨fun _ => ⟨⟨rfl, rfl, .inl ⟨rfl, rfl⟩⟩, rfl⟩, by decide⟩

theorem witness_odd_fetch_allowed : (at_ 0xFFE State.reset).pc.toNat < 0xFFF ∧ (at_ 0xFFF State.reset).pc.toNat = 0xFFF ∧
    0xFFF < (at_ 0x1000 State.reset).pc.toNat := by decide

/-- LD [I], V1 with I = PC = 0x202, V0 = 0x60, V1 = 0x05: the stored word is LD V0, 5. -/
theorem witness_stored_instruction : ∃ s t : State, Memory.wf s.mem ∧ (0 : Reg).toNat + 1 ≤ (1 : Reg).toNat ∧
    s.atI + (1 : Reg).toNat ≤ 0xFFF ∧ exec (.ldMemVx 1) s = .next t ∧ t.pc.toNat = s.atI + (0 : Reg).toNat ∧
    t.pc.toNat % 2 = 0 ∧ CoreTurn t [] ∧ decode [s.readV 0, s.readV (0 + 1)] = .ok (.ldImm 0 5, []) :=
  ⟨at_ 0x202 { regs 0x60 0x05 0 0 with i := 0x202 }, _, nil_wf, by decide, by decide, rfl, rfl, rfl,
    ⟨rfl, rfl, .inl ⟨rfl, rfl⟩⟩, by decide⟩

theorem witness_end_of_run : atEnd (placed 0x200 0x1200 State.reset) 0x200 ∧
    atEnd (placed 0xFFE 0x1FFE State.reset) 0xFFE := by
  refine ⟨⟨rfl, rfl, ?_⟩, ⟨rfl, rfl, ?_⟩⟩ <;> unfold endsAt <;> decide

theorem witness_depths : (0 : Fin 13).val < 12 ∧ (11 : Fin 13).val < 12 ∧ (12 : Fin 13).val = 12 ∧
    0 < (1 : Fin 13).val ∧ 0 < (12 : Fin 13).val ∧ (0 : Fin 13).val = 0 := by decide

/-- The called code did a CALL and a RET of its own: a stale entry above SP, the entries below it kept. -/
theorem witness_call_ret : ∃ s t : State, s.pc = 0x200 + 2 ∧ s.sp.val < 12 ∧ exec (.call 0x300) s = .next t ∧
    ∃ u : State, u.sp = t.sp ∧ (∀ j, j < t.sp.val → u.stack[j]? = t.stack[j]?) ∧ u.stack ≠ t.stack := by
  refine ⟨at_ 0x202 State.reset, _, rfl, by decide, rfl,
    { at_ 0x310 State.reset with sp := 1, stack := (State.reset.stack.set 0 0x202).set 1 0x312 }, rfl, ?_, by decide⟩
  intro j h
  have h0 : j = 0 := Nat.lt_one_iff.1 h
  subst h0
  rfl

theorem witness_call_ret_deepest : (at_ 0x202 { State.reset with sp := 11 }).sp.val < 12 ∧
    (at_ 0x202 { State.reset with sp := 11 }).pc = 0x200 + 2 := by decide

theorem witness_strict_nibble : (1 : Nib) ≠ 0 ∧ (15 : Nib) ≠ 0 := by decide

theorem witness_accesses_in_range : Memory.wf State.reset.mem ∧
    State.atI { State.reset with i := 0xFFD } + 2 = 0xFFF ∧
    State.atI { State.reset with i := 0xFF0 } + (15 : Reg).toNat = 0xFFF ∧
    State.atI { State.reset with i := 0xFFF } + (0 : Reg).toNat = 0xFFF ∧ State.atI State.reset + 2 ≤ 0xFFF :=
  ⟨nil_wf, rfl, rfl, rfl, by decide⟩

theorem witness_out_of_range :
    firstBadAddress (.drw 0 0 5) { State.reset with i := 0xFFC } = some 0x1000 ∧
    firstBadAddress (.drw 0 0 1) { State.reset with i := 0xFFFF } = some 0xFFFF ∧
    firstBadAddress (.ldB 0) { State.reset with i := 0xFFE } = some 0x1000 ∧
    firstBadAddress (.ldMemVx 0) { State.reset with i := 0x1000 } = some 0x1000 ∧
    firstBadAddress (.ldVxMem 15) { State.reset with i := 0xFF1 } = some 0x1000 := by decide

theorem witness_equal_memories : Memory.wf [(0x200, 1), (0xFFF, 2)] ∧
    Memory.read [(0x200, 1), (0xFFF, 2)] 0xFFF = 2 := by decide

theorem witness_sprite_in_range : SpriteInRange { State.reset with i := 0xFFFF } 0 ∧
    SpriteInRange { State.reset with i := 0xFFF } 1 ∧ SpriteInRange { State.reset with i := 0xFF1 } 15 :=
  ⟨.inl rfl, .inr (by decide), .inr (by decide)⟩

/-- Drawing the glyph at I twice, through other registers with the same position. -/
theorem witness_draw_twice : ∃ s t u : State, SpriteInRange s 5 ∧ exec (.drw 0 1 5) s = .next t ∧ u.fb = t.fb ∧
    u.i = s.i ∧ (∀ a, u.readMem a = s.readMem a) ∧ u.readV 2 = s.readV 0 ∧ u.readV 3 = s.readV 1 ∧ u.pc ≠ s.pc :=
  ⟨State.reset, _, at_ 0x300 (State.showCanvas State.reset (State.drawn State.reset 0 1 5)), .inr (by decide), rfl, rfl,
    rfl, fun _ => rfl, by decide, by decide, by decide⟩

theorem witness_blank_sprite : SpriteInRange { State.reset with i := 0x300 } 5 ∧ ∀ py px, py < 32 → px < 64 →
    spriteBit { State.reset with i := 0x300 } 0 0 5 py px = false := by
  refine ⟨.inr (by decide), fun py px _ _ => ?_⟩
  have h : ∀ k, State.readMem { State.reset with i := 0x300 } (0x300 + k) = 0 := by
    intro k
    show resetByte (0x300 + k) = 0
    unfold resetByte
    rw [if_neg (by simp; omega)]
  have e : State.atI { State.reset with i := 0x300 } = 0x300 := rfl
  simp only [spriteBit, e, h]
  simp

theorem witness_suspends : ∃ t, exec (.ldVxK 15) State.reset = .next t ∧ t.mode = .awaitingKey 15 ∧
    State.reset.mode = .running := ⟨_, rfl, rfl, rfl⟩

theorem witness_key_running : InputTurn (upcoming (.key 15 .down) State.reset) (.key 15 .down) [] ∧
    (upcoming (.key 15 .down) State.reset).session = .live ∧ (upcoming (.key 15 .down) State.reset).mode = .running :=
  ⟨rfl, rfl, rfl⟩

theorem witness_key_wait : (∀ sch, (waiting sch).session = .live ∧ (waiting sch).mode = .awaitingKey 5) ∧
    (waiting []).schedule = [] ∧ InputTurn (waiting [.instruction, .tick]) .instruction [.tick] ∧
    InputTurn (waiting [.tick]) .tick [] ∧ InputTurn (waiting [.key 0 .up]) (.key 0 .up) [] ∧
    InputTurn (waiting [.key 15 .down]) (.key 15 .down) [] :=
  ⟨fun _ => ⟨rfl, rfl⟩, rfl, rfl, rfl, rfl, rfl⟩

theorem witness_input : InputTurn { upcoming .tick State.reset with session := .noSession } .tick [] ∧
    Event.tick ≠ .instruction ∧ Session.noSession ≠ .ended := ⟨rfl, by decide, by decide⟩

theorem witness_tick : State.reset.session = .live ∧ State.reset.mode = .running ∧
    ∃ r, (waiting []).mode = .awaitingKey r := ⟨rfl, rfl, 5, rfl⟩

theorem witness_ticks : (waiting [.tick, .tick, .tick, .key 1 .down]).schedule =
    List.replicate 3 .tick ++ [.key 1 .down] := rfl

theorem witness_fault : ∃ t f, State.reset.mode = .running ∧ exec .ret State.reset = .next t ∧ t.mode = .faulted f :=
  ⟨_, _, rfl, rfl, rfl⟩

theorem witness_frozen : (∀ sch, (stopped sch).session = .live ∧
      (stopped sch).mode = .faulted ⟨.stackUnderflow, 0x200, 0x00EE, 0⟩) ∧ (stopped []).schedule = [] ∧
    InputTurn (stopped [.instruction]) .instruction [] ∧ InputTurn (stopped [.tick]) .tick [] ∧
    InputTurn (stopped [.key 15 .up]) (.key 15 .up) [] := ⟨fun _ => ⟨rfl, rfl⟩, rfl, rfl, rfl, rfl⟩

/-- The longest legal image, out of FAULTED, and the shortest, out of no session and after a shutdown. -/
theorem witness_reset : InputTurn (stopped [.reset (List.replicate 0xE00 1)]) (.reset (List.replicate 0xE00 1)) [] ∧
    (List.replicate 0xE00 (1 : Byte)).length ≤ 0xE00 ∧
    InputTurn { upcoming (.reset []) State.reset with session := .noSession } (.reset []) [] ∧
    InputTurn { upcoming (.reset []) State.reset with session := .ended } (.reset []) [] :=
  ⟨rfl, by rw [List.length_replicate], rfl, rfl⟩

theorem witness_oversize :
    InputTurn (stopped [.reset (List.replicate 0xE01 1)]) (.reset (List.replicate 0xE01 1)) [] ∧
    InputTurn { upcoming (.reset (List.replicate 0xE01 1)) State.reset with session := .ended }
      (.reset (List.replicate 0xE01 1)) [] ∧
    0xE00 < (List.replicate 0xE01 (1 : Byte)).length := ⟨rfl, rfl, by rw [List.length_replicate]; decide⟩

theorem witness_no_session : ∀ e : Event,
    InputTurn { upcoming e State.reset with session := .noSession } e [] := fun _ => rfl

theorem witness_shutdown : InputTurn (waiting [.shutdown]) .shutdown [] ∧ (waiting [.shutdown]).session ≠ .ended ∧
    State.session { State.reset with session := .ended } = .ended ∧
    ∀ image rest, ¬ InputTurn { upcoming .tick State.reset with session := .ended } (.reset image) rest :=
  ⟨rfl, by decide, rfl, fun _ _ h => by simp [InputTurn, upcoming] at h⟩

theorem witness_next : ∃ t, exec (.addReg 0 1) State.reset = .next t ∧ noFault t ∧ State.reset.mode = .running ∧
    writesFlag (.addReg 0 1) = true ∧ writesFlag .cls = false ∧ isDest .cls 15 = false :=
  ⟨_, rfl, fun _ h => Mode.noConfusion h, rfl, rfl, rfl, rfl⟩

theorem witness_readers : (∀ x, Instr.ldDtVx 3 ≠ .ldVxDt x) ∧ (∀ x, Instr.ldVxK 3 ≠ .skp x ∧ Instr.ldVxK 3 ≠ .sknp x) ∧
    (∃ t, exec (.ldDtVx 3) State.reset = .next t) ∧ ∃ t, exec (.ldVxK 3) State.reset = .next t :=
  ⟨fun _ => by simp, fun _ => ⟨by simp, by simp⟩, ⟨_, rfl⟩, ⟨_, rfl⟩⟩

/-- A waiting state and a stopped one that meet the invariant and take a step. -/
theorem witness_invariant : (Inv (waiting [.key 3 .down]) ∧ ∃ t, step (waiting [.key 3 .down]) = .next t) ∧
    Inv (stopped [.tick]) ∧ ∃ t, step (stopped [.tick]) = .next t := by
  have hs : ∀ w ∈ State.reset.stack.toList, w.toNat ≤ 0x1000 ∧ w.toNat % 2 = 0 := by
    intro w h
    simp [State.reset] at h
    subst h
    decide
  refine ⟨⟨⟨nil_wf, by decide, hs, ?_, ?_⟩, _, rfl⟩, ⟨nil_wf, by decide, hs, ?_, ?_⟩, _, rfl⟩
  · intro r h; cases h; rfl
  · intro f h; cases h
  · intro r h; cases h
  · intro f h; cases h; exact ⟨rfl, .inr rfl, rfl, rfl⟩

/-- An open session, and none after a refused reset (log 9). -/
theorem witness_export : State.reset.session ≠ .ended ∧
    { State.reset with session := .noSession }.session ≠ .ended := by decide

/-- After a shutdown nothing is left and nothing is shown (40_engine.md R142, 93 K24). -/
theorem test_shutdown_discards : nextIs (step (upcoming .shutdown (regs 1 2 3 4))) (fun s =>
    s.v == State.reset.v && s.view == none && s.soundOut == none && s.session == .ended) = true := by decide

/-- A reset after a shutdown starts a new session; a tick there has no next state (40_engine.md R120, R142). -/
theorem test_reset_after_shutdown : nextIs (step { upcoming (.reset [0x60, 0x05]) State.reset with session := .ended })
    (fun s => s.session == .live && [s.readMem 0x200, s.readMem 0x201] == [0x60, 5] && s.soundOut == some 0) = true := by
  decide

theorem test_tick_after_shutdown : step { upcoming .tick State.reset with session := .ended } =
    .fault .sessionEnded := rfl

/-- A shutdown with no session open, after a refused reset, is taken (40_engine.md R120; log 23). -/
theorem test_shutdown_with_no_session : nextIs (step { upcoming .shutdown (regs 1 2 3 4) with session := .noSession })
    (fun s => s.session == .ended && s.v == State.reset.v && State.soundOut s == none) = true := by decide

/-! #### Runs: the jump to itself at 0x200 with a tick at every second step, and a key wait that key 7 ends -/

/-- Ticks and instruction steps in turn. -/
def tickingHost (n : Nat) : Event := if n % 2 = 0 then .tick else .instruction

/-- The run of the jump to itself with DT = `dt`. -/
def looping (dt : Byte) : State := { placed 0x200 0x1200 State.reset with ir := 0x1200, dt := dt }

theorem ticksBefore_tickingHost (n : Nat) : ticksBefore tickingHost n = (n + 1) / 2 := by
  induction n with
  | zero => rfl
  | succ n ih => rw [ticksBefore, ih, tickingHost]; by_cases h : n % 2 = 0 <;> simp [h] <;> omega

theorem witness_host_ticks : hostTicks tickingHost :=
  ⟨fun n => n + 1, fun _ => by omega, fun p => ⟨p, by omega⟩, fun n => by rw [ticksBefore_tickingHost]; omega,
    fun n => ⟨2 * n + 1, by rw [ticksBefore_tickingHost]; omega⟩⟩

/-- Ticks for ever keep the tick duty and are a run, though an instruction step is enabled throughout (log 22). -/
theorem test_ticks_alone_are_a_run :
    hostTicks (fun _ => .tick) ∧ IsRun (fun _ => .tick) (fun _ => looping 0) := by
  have h : ∀ n, ticksBefore (fun _ => .tick) n = n := fun n => by
    induction n with
    | zero => rfl
    | succ n ih => simp [ticksBefore, ih]
  exact ⟨⟨fun n => n + 1, fun _ => Nat.le_succ _, fun p => ⟨p, Nat.le_succ p⟩, fun n => Nat.le_of_eq (h _),
    fun n => ⟨n + 1, Nat.le_of_eq (h _).symm⟩⟩, fun _ => rfl⟩

/-- The jump to itself leaves the loop's state as it is. -/
theorem looping_step (dt : Byte) : step { looping dt with schedule := [.instruction] } = .next (looping dt) := by
  have h : decodeWord (looping 0).wordAtPc = .ok (.jp 0x200) := by decide
  have hf : fetchCheck (looping 0) = none := by decide
  have hi : instructionStep (looping dt) = exec (.jp 0x200) (looping dt).fetch := instructionStep_of_decoded hf h
  have hw : (looping 0).wordAtPc = 0x1200 := by decide
  have he : exec (.jp 0x200) (looping dt).fetch =
      .next { looping dt with ir := (looping 0).wordAtPc, pc := 0x200 } := rfl
  rw [hw] at he
  exact (step_instruction rfl).trans ((coreTurn_running rfl rfl).trans (hi.trans he))

theorem witness_ticking_run : IsRun tickingHost (fun n => looping (BitVec.ofNat 8 (3 - (n + 1) / 2))) := by
  intro n
  by_cases h : n % 2 = 0
  · have e : countDown (BitVec.ofNat 8 (3 - (n + 1) / 2)) = BitVec.ofNat 8 (3 - (n + 1 + 1) / 2) := by
      apply BitVec.eq_of_toNat_eq
      rw [countDown_toNat]
      simp only [BitVec.toNat_ofNat]
      omega
    simp only [tickingHost, h, if_true]
    rw [← e]
    rfl
  · have e : (n + 1 + 1) / 2 = (n + 1) / 2 := by omega
    simp only [tickingHost, h, if_false, e]
    exact looping_step _

theorem witness_ticking_run_hypotheses (dt : Byte) : (looping dt).session = .live ∧ noFault (looping dt) ∧
    decodeWord (looping dt).wordAtPc = .ok (.jp 0x200) ∧ ∀ n image, tickingHost n ≠ .reset image :=
  ⟨rfl, fun _ h => Mode.noConfusion h, (by decide : decodeWord (looping 0).wordAtPc = .ok (.jp 0x200)),
    fun n image h => by unfold tickingHost at h; split at h <;> cases h⟩

/-- The core's turn once, then key 7 down at every step. -/
def keyHost : Nat → Event
  | 0 => .instruction
  | _ + 1 => .key 7 .down

/-- LD V5, K at 0x200: before it, waiting, and after key 7. -/
def keyRun : Nat → State
  | 0 => placed 0x200 0xF50A State.reset
  | 1 => { placed 0x200 0xF50A State.reset with ir := 0xF50A, pc := 0x202, mode := .awaitingKey 5 }
  | _ + 2 => { (placed 0x200 0xF50A State.reset).writeV 5 7 with ir := 0xF50A, pc := 0x202, keys := 0x80 }

theorem witness_key_run : IsRun keyHost keyRun ∧ suspendsAt keyHost keyRun 0 5 ∧
    hostKeys 7 keyHost keyRun (fun l => l = 0) ∧
    ∀ l, keyHost l ≠ .shutdown ∧ ∀ image, keyHost l ≠ .reset image := by
  refine ⟨fun n => ?_, ⟨rfl, rfl⟩, fun n _ _ _ => ⟨n + 1, by omega, rfl⟩, fun l => ?_⟩
  · match n with
    | 0 => rfl
    | 1 => rfl
    | m + 2 =>
      have h : keysAfter 0x80 7 .down = 0x80 := by decide
      rw [step_input (e := .key 7 .down) (rest := []) rfl (by decide) (by decide : Session.live ≠ .ended)]
      show Host.Outcome.next { keyRun (m + 2) with keys := keysAfter 0x80 7 .down } = _
      rw [h]
      rfl
  · cases l <;> simp [keyHost]

end Sys2Proof.Tests
end

section
/-! SUPPORT. Proofs about the state (10_state.md R30 to R53): memory as data, the reset state, who writes and who reads
each field, and the invariant of reachable states. -/

namespace Sys2Proof.Machine

open Sys2Proof.Claims

/-! ### Memory as data -/

/-- An address below every listed one reads as its reset contents. -/
theorem read_of_below {m : Memory} {a : Nat} (h : ∀ p ∈ m, a < p.1) : Memory.read m a = resetByte a :=
  read_of_not_listed m a fun p hp => Nat.ne_of_gt (h p hp)

/-- What a canonical memory says of its first cell: it is not the reset contents, and the rest lies above. -/
theorem wf_cons_iff {a : Nat} {v : Byte} {m : Memory} :
    Memory.wf ((a, v) :: m) ↔
      (a < hw.memSize ∧ v ≠ resetByte a) ∧ (∀ p ∈ m, a < p.1) ∧ Memory.wf m := by
  simp only [Memory.wf, List.pairwise_cons, List.forall_mem_cons]
  tauto

/-- Of two canonical memories that read the same, neither starts below the other. -/
theorem head_le_of_read_eq {a b : Nat} {v u : Byte} {m m' : Memory}
    (hm : Memory.wf ((a, v) :: m)) (hm' : Memory.wf ((b, u) :: m'))
    (h : ∀ c, Memory.read ((a, v) :: m) c = Memory.read ((b, u) :: m') c) : b ≤ a := by
  by_contra hab
  obtain ⟨⟨-, hv⟩, -, -⟩ := wf_cons_iff.1 hm
  obtain ⟨-, hb, -⟩ := wf_cons_iff.1 hm'
  have hbelow : ∀ p ∈ (b, u) :: m', a < p.1 :=
    List.forall_mem_cons.2 ⟨Nat.lt_of_not_le hab, fun p hp => (Nat.lt_of_not_le hab).trans (hb p hp)⟩
  have ha := h a
  rw [read_cons, if_pos rfl, read_of_below hbelow] at ha
  exact hv ha

/-- Canonical memories that read the same everywhere are the same list. -/
theorem eq_of_read_eq {m m' : Memory} (hm : Memory.wf m) (hm' : Memory.wf m')
    (h : ∀ a, Memory.read m a = Memory.read m' a) : m = m' := by
  induction m generalizing m' with
  | nil =>
    cases m' with
    | nil => rfl
    | cons c m' =>
      obtain ⟨b, u⟩ := c
      obtain ⟨⟨-, hu⟩, -, -⟩ := wf_cons_iff.1 hm'
      exact absurd (by simpa [read_cons] using (h b).symm) hu
  | cons c m ih =>
    obtain ⟨a, v⟩ := c
    obtain ⟨⟨-, hv⟩, habove, hmwf⟩ := wf_cons_iff.1 hm
    cases m' with
    | nil => exact absurd (by simpa [read_cons] using h a) hv
    | cons c' m' =>
      obtain ⟨b, u⟩ := c'
      obtain ⟨-, habove', hmwf'⟩ := wf_cons_iff.1 hm'
      obtain rfl : a = b :=
        Nat.le_antisymm (head_le_of_read_eq hm' hm fun c => (h c).symm) (head_le_of_read_eq hm hm' h)
      obtain rfl : v = u := by simpa [read_cons] using h a
      have htail : ∀ c, Memory.read m c = Memory.read m' c := fun c => by
        by_cases hc : c = a
        · rw [hc, read_of_below habove, read_of_below habove']
        · simpa [read_cons, hc] using h c
      rw [ih hmwf hmwf' htail]

/-- Settles O32, by induction on the two lists: their first cells agree, and so do the rests. -/
theorem equalMemoriesAreEqualData : Obligations.EqualMemoriesAreEqualData :=
  fun _ _ hm hm' h => eq_of_read_eq hm hm' h

/-! ### The reset state -/

theorem reset_readV (q : Reg) : State.reset.readV q = 0 := by simp [State.readV, State.reset]

theorem reset_pixel (py px : Nat) : FrameBuffer.pixel State.reset.fb py px = false := pixel_clear py px

/-- The reset contents are the font below 0x050 and 0 elsewhere (10_state.md R51, R52). -/
theorem resetByte_eq (a : Nat) : resetByte a = if a < 0x50 then hw.font.getD a 0 else 0 := by
  simp only [resetByte, hw_fontBase, hw_fontEnd, Nat.zero_le, true_and, Nat.sub_zero]
  exact if_congr Nat.lt_succ_iff.symm rfl rfl

/-- Settles O46: every field of `State.reset`, with the pixels and the memory bytes read one by one. -/
theorem resetStateHoldsTheResetValues : Obligations.ResetStateHoldsTheResetValues :=
  ⟨reset_readV, rfl, rfl, rfl, rfl, rfl, rfl, fun _ h => by simpa [State.reset] using h, rfl, rfl, rfl,
    reset_pixel, resetByte_eq⟩

/-- Every stack entry is a return address: even, at most 0x1000 (the clause `stack_fits` of `Inv`). -/
def StackFits (s : State) : Prop := ∀ w ∈ s.stack.toList, w.toNat ≤ 0x1000 ∧ w.toNat % 2 = 0

theorem StackFits.of_eq {s t : State} (h : StackFits s) (heq : t.stack = s.stack) : StackFits t := by
  unfold StackFits
  rw [heq]
  exact h

/-- A running state meets the invariant when its memory, PC and stack do. -/
theorem inv_of_running {s : State} (hmem : Memory.wf s.mem) (hpc : s.pc.toNat ≤ 0x10FE)
    (hstack : StackFits s) (hmode : s.mode = .running) : Inv s where
  mem_wf := hmem
  pc_bound := hpc
  stack_fits := hstack
  waiting r h := by simp [hmode] at h
  faulted f h := by simp [hmode] at h

theorem reset_stack_fits : StackFits State.reset := by
  simp [StackFits, State.reset]

/-- Settles O55: the reset state runs, at PC = 0x200, with an empty list of memory cells and a stack of zeros. -/
theorem invariantHoldsAtReset : Obligations.InvariantHoldsAtReset :=
  inv_of_running nil_wf (by decide) reset_stack_fits rfl

/-! ### The writers of each field -/

/-- RET writes PC and SP only (41_control_flow.md R160). -/
theorem effect_ret_frame (s : State) :
    effect .ret s = { s with pc := (effect .ret s).pc, sp := (effect .ret s).sp } := by
  by_cases h : s.sp.val = 0
  · simp [effect, (pop_eq_none_iff s).2 h]
  · simp [effect, pop_of_pos s h, State.jump]

/-- CALL writes PC, SP and STACK only (41_control_flow.md R162). -/
theorem effect_call_frame (nnn : Addr12) (s : State) :
    effect (.call nnn) s = { s with
      pc := (effect (.call nnn) s).pc
      sp := (effect (.call nnn) s).sp
      stack := (effect (.call nnn) s).stack } := by
  by_cases h : s.sp.val = 12
  · simp [effect, (push_eq_none_iff s s.pc).2 h]
  · simp [effect, push_of_lt s s.pc (by omega), State.jump]

/-- From `s` to `t` the instruction `i` writes only what the spec names it for (10_state.md R34 to R43, R47, R48).
MODE and the registers are not spoken of here: `exec_mode_cases`, `exec_readV`. -/
structure WritesOwnFields (i : Instr) (s t : State) : Prop where
  keys : t.keys = s.keys
  ir : t.ir = s.ir
  session : t.session = s.session
  schedule : t.schedule = s.schedule
  reports : t.reports = s.reports
  dt : t.dt = s.dt ∨ ∃ x, i = .ldDtVx x
  st : t.st = s.st ∨ ∃ x, i = .ldStVx x
  index : t.i = s.i ∨ (∃ nnn, i = .ldI nnn) ∨ (∃ x, i = .addI x) ∨ ∃ x, i = .ldF x
  sp : t.sp = s.sp ∨ i = .ret ∨ ∃ nnn, i = .call nnn
  stack : t.stack = s.stack ∨ ∃ nnn, i = .call nnn
  mem : t.mem = s.mem ∨ (∃ x, i = .ldB x) ∨ ∃ x, i = .ldMemVx x
  fb : t.fb = s.fb ∨ i = .cls ∨ ∃ x y n, i = .drw x y n
  draws : t.draws = s.draws ∨ ∃ x nn, i = .rnd x nn
  pc : t.pc = s.pc ∨ writesPc i = true

/-- Fault entry writes MODE alone (40_engine.md R131). -/
theorem enterFault_writesOwnFields (i : Instr) (s : State) (f : FaultRecord) :
    WritesOwnFields i s (s.enterFault f) := by
  constructor <;> simp

theorem effect_writesOwnFields (i : Instr) (s : State) : WritesOwnFields i s (effect i s) := by
  cases i
  case ret => rw [effect_ret_frame]; constructor <;> simp [writesPc]
  case call => rw [effect_call_frame]; constructor <;> simp [writesPc]
  all_goals constructor <;> simp [effect, writesPc]

theorem exec_writesOwnFields {i : Instr} {s t : State} (h : exec i s = .next t) : WritesOwnFields i s t := by
  obtain ⟨_, _, -, rfl⟩ | ⟨-, rfl⟩ := exec_next_cases h
  · exact enterFault_writesOwnFields i s _
  · exact effect_writesOwnFields i s

/-! ### The registers -/

/-- A register that is neither named as destination nor the flag of a flag writer keeps its value. -/
theorem readV_effect {i : Instr} {q : Reg} (s : State) (hdest : isDest i q = false)
    (hflag : q = 15 → writesFlag i = false) : (effect i s).readV q = s.readV q := by
  cases i
  case ret => rw [effect_ret_frame]; rfl
  case call => rw [effect_call_frame]; rfl
  case ldImm | addImm | ldReg | orReg | andReg | xorReg | ldVxDt =>
    exact (readV_writeV ..).trans (if_neg (by simpa [isDest] using hdest))
  case rnd => exact (readV_maskDraw ..).trans (if_neg (by simpa [isDest] using hdest))
  case addReg | subReg | shr | subnReg | shl =>
    have hq : q ≠ 15 := fun h => Bool.noConfusion (hflag h)
    exact (readV_writeResultAndFlag ..).trans ((if_neg hq).trans (if_neg (by simpa [isDest] using hdest)))
  case drw => exact (readV_showCanvas ..).trans (if_neg fun h => Bool.noConfusion (hflag h))
  case ldVxMem x =>
    have hq : x.toNat < q.toNat := by simpa [isDest] using hdest
    exact (readV_loadRegs _ _ _ _ x.isLt).trans (if_neg (by omega))
  case seImm | sneImm | seReg | sneReg | skp | sknp => exact skipIf_readV ..
  all_goals rfl

theorem exec_readV {i : Instr} {q : Reg} {s t : State} (h : exec i s = .next t) (hdest : isDest i q = false)
    (hflag : q = 15 → writesFlag i = false) : t.readV q = s.readV q := by
  obtain ⟨_, _, -, rfl⟩ | ⟨-, rfl⟩ := exec_next_cases h
  · rfl
  · exact readV_effect s hdest hflag

/-- A flag writer that raises nothing leaves a flag in VF (42_alu.md R221, 44_display.md R264). -/
theorem effect_flag {i : Instr} (s : State) (h : writesFlag i = true) :
    ∃ b, (effect i s).readV 15 = flagByte b := by
  cases i
  case addReg | subReg | shr | subnReg | shl => exact ⟨_, readV_writeResultAndFlag ..⟩
  case drw => exact ⟨_, readV_showCanvas ..⟩
  all_goals exact Bool.noConfusion h

/-- Settles O53: an effect keeps what it does not name, and the flag writers' effects leave a flag byte in VF. -/
theorem onlyFlagWritersTouchVf : Obligations.OnlyFlagWritersTouchVf := by
  refine fun i s t h => ⟨fun hflag hdest => exec_readV h hdest fun _ => hflag, fun hflag _ hno => ?_⟩
  obtain ⟨_, _, -, rfl⟩ | ⟨-, rfl⟩ := exec_next_cases h
  · exact absurd rfl (hno _)
  · obtain ⟨b, hb⟩ := effect_flag s hflag
    exact hb ▸ flagByte_cases b

/-! ### The faults -/

/-- `oob` on the bytes from I on is the first bad address among those the instruction touches. -/
theorem firstBadAddress_eq_oob {i : Instr} {k : Nat} (s : State) (h : bytesTouched i = k + 1) :
    firstBadAddress i s = oob s.atI k := by
  unfold firstBadAddress oob
  rw [h, hw_addrMax, hw_memSize]
  exact ite_congr (by simp; omega) (fun _ => rfl) (fun _ => rfl)

/-- The fault of a checked access is OutOfBoundsAccess at the first bad address (20_memory.md R77). -/
theorem firstBadAddress_of_access_fault {i : Instr} {s : State} {k addr : Nat} {kind : FaultKind}
    (hk : bytesTouched i = k + 1)
    (h : (oob s.atI k).map (FaultKind.outOfBoundsAccess, ·) = some (kind, addr)) :
    kind = .outOfBoundsAccess ∧ firstBadAddress i s = some addr := by
  obtain ⟨bad, hbad, heq⟩ := Option.map_eq_some_iff.1 h
  cases heq
  exact ⟨rfl, (firstBadAddress_eq_oob s hk).trans hbad⟩

/-- Every fault of the execute part, with its cause and the address it records (60_exceptions.md R300). -/
theorem raisedBy_cases {i : Instr} {s : State} {kind : FaultKind} {addr : Nat}
    (h : raisedBy i s = some (kind, addr)) :
    (kind = .stackUnderflow ∧ addr = 0 ∧ i = .ret ∧ s.sp.val = 0) ∨
    (kind = .stackOverflow ∧ addr = 0 ∧ (∃ nnn, i = .call nnn) ∧ s.sp.val = 12) ∨
    (kind = .outOfBoundsAccess ∧ firstBadAddress i s = some addr) := by
  cases i
  case ret =>
    simp only [raisedBy, Option.ite_none_right_eq_some, Option.some.injEq, Prod.mk.injEq] at h
    obtain ⟨hsp, rfl, rfl⟩ := h
    exact .inl ⟨rfl, rfl, rfl, hsp⟩
  case call nnn =>
    simp only [raisedBy, Option.ite_none_right_eq_some, Option.some.injEq, Prod.mk.injEq] at h
    obtain ⟨hsp, rfl, rfl⟩ := h
    exact .inr (.inl ⟨rfl, rfl, ⟨nnn, rfl⟩, hsp⟩)
  case drw x y n =>
    simp only [raisedBy, Option.ite_none_left_eq_some] at h
    obtain ⟨hn, hoob⟩ := h
    have hpos : n.toNat ≠ 0 := fun h0 => hn (BitVec.eq_of_toNat_eq h0)
    exact .inr (.inr (firstBadAddress_of_access_fault (by simp only [bytesTouched]; omega) hoob))
  case ldB | ldMemVx | ldVxMem => exact .inr (.inr (firstBadAddress_of_access_fault rfl h))
  all_goals exact nomatch h

/-- MODE after an instruction: as before, waiting after LD Vx, K, or the fault the instruction raised. -/
theorem exec_mode_cases {i : Instr} {s t : State} (h : exec i s = .next t) :
    t.mode = s.mode ∨ (∃ x, i = .ldVxK x ∧ t.mode = .awaitingKey x) ∨
      ∃ f, t.mode = .faulted f ∧ ((i = .ret ∧ s.sp.val = 0) ∨ ((∃ nnn, i = .call nnn) ∧ s.sp.val = 12) ∨
        ∃ bad, firstBadAddress i s = some bad) := by
  obtain ⟨_, _, hraised, rfl⟩ | ⟨-, rfl⟩ := exec_next_cases h
  · refine .inr (.inr ⟨_, rfl, ?_⟩)
    obtain ⟨-, -, hret⟩ | ⟨-, -, hcall⟩ | ⟨-, hbad⟩ := raisedBy_cases hraised
    · exact .inl hret
    · exact .inr (.inl hcall)
    · exact .inr (.inr ⟨_, hbad⟩)
  · exact (effect_mode i s).imp_right .inl

/-- Settles O50, from the writers of each field, of MODE and of the registers. -/
theorem eachPieceOfStateHasItsWriters : Obligations.EachPieceOfStateHasItsWriters := by
  intro i s t h
  obtain ⟨hkeys, hir, hses, hsch, hrep, hdt, hst, hi, hsp, hstack, hmem, hfb, hdraws, hpc⟩ :=
    exec_writesOwnFields h
  refine ⟨hkeys, hir, hses, hsch, hrep, hdt, hst, hi, hsp, hstack, hmem, hfb, hdraws, hpc,
    exec_mode_cases h, fun q => ?_⟩
  cases hdest : isDest i q with
  | true => exact .inr (.inl rfl)
  | false =>
    by_cases hflag : q = 15 ∧ writesFlag i = true
    · exact .inr (.inr hflag)
    · exact .inl (exec_readV h hdest fun hq => by simpa [hq] using hflag)

/-! ### The readers of DT and KEYS -/

theorem skipIf_with_dt_keys (s : State) (c : Bool) (d : Byte) (k : BitVec 16) :
    State.skipIf { s with dt := d, keys := k } c = { s.skipIf c with dt := d, keys := k } := by
  cases c <;> rfl

theorem loadRegs_with_dt_keys (s : State) (a n : Nat) (d : Byte) (k : BitVec 16) :
    State.loadRegs { s with dt := d, keys := k } a n = { s.loadRegs a n with dt := d, keys := k } := by
  induction n with
  | zero => rfl
  | succ n ih => simp only [State.loadRegs, ih]; rfl

theorem raisedBy_with_dt_keys (i : Instr) (s : State) (d : Byte) (k : BitVec 16) :
    raisedBy i { s with dt := d, keys := k } = raisedBy i s := by
  cases i <;> rfl

/-- Other values in DT and KEYS change nothing else that an effect leaves, but for the readers LD Vx, DT, SKP and
SKNP (10_state.md R39, R43). -/
theorem effect_with_dt_keys {i : Instr} {s : State} {d : Byte} {k : BitVec 16}
    (hd : d = s.dt ∨ ∀ x, i ≠ .ldVxDt x) (hk : k = s.keys ∨ ∀ x, i ≠ .skp x ∧ i ≠ .sknp x) :
    effect i { s with dt := d, keys := k } =
      { effect i s with dt := (effect i { s with dt := d, keys := k }).dt, keys := k } := by
  cases i
  case ret =>
    by_cases h : s.sp.val = 0
    · simp [effect, State.pop, h]
    · simp [effect, State.pop, h, State.jump]
  case call =>
    by_cases h : s.sp.val < 12
    · simp [effect, State.push, h, State.jump]
    · simp [effect, State.push, h]
  case seImm | sneImm | seReg | sneReg => simp only [effect, skipIf_with_dt_keys]; rfl
  case skp x =>
    obtain rfl := hk.resolve_right fun h => (h x).1 rfl
    simp only [effect, skipIf_with_dt_keys]; rfl
  case sknp x =>
    obtain rfl := hk.resolve_right fun h => (h x).2 rfl
    simp only [effect, skipIf_with_dt_keys]; rfl
  case ldVxDt x =>
    obtain rfl := hd.resolve_right fun h => h x rfl
    rfl
  case ldVxMem => simp only [effect, loadRegs_with_dt_keys]; rfl
  all_goals rfl

/-- An instruction that does not read them answers the same under other values of DT and KEYS; KEYS keeps the other
value, and DT too unless the instruction is LD DT, Vx. -/
theorem exec_with_dt_keys {i : Instr} {s t : State} {d : Byte} {k : BitVec 16}
    (hd : d = s.dt ∨ ∀ x, i ≠ .ldVxDt x) (hk : k = s.keys ∨ ∀ x, i ≠ .skp x ∧ i ≠ .sknp x)
    (h : exec i s = .next t) :
    ∃ e, exec i { s with dt := d, keys := k } = .next { t with dt := e, keys := k } ∧
      ((∃ x, i = .ldDtVx x ∧ e = t.dt) ∨ ((∀ x, i ≠ .ldDtVx x) ∧ e = d)) := by
  rw [exec_eq, raisedBy_with_dt_keys]
  obtain ⟨kind, addr, hraised, rfl⟩ | ⟨hraised, rfl⟩ := exec_next_cases h
  · rw [hraised]
    have hno : ∀ x, i ≠ .ldDtVx x := by rintro x rfl; exact nomatch hraised
    exact ⟨d, rfl, .inr ⟨hno, rfl⟩⟩
  · rw [hraised]
    refine ⟨_, congrArg _ (effect_with_dt_keys hd hk), ?_⟩
    by_cases hw : ∃ x, i = .ldDtVx x
    · obtain ⟨x, rfl⟩ := hw
      exact .inl ⟨x, rfl, rfl⟩
    · exact .inr ⟨not_exists.1 hw, (effect_writesOwnFields i _).dt.resolve_right hw⟩

/-! ### Inputs and the timers and keys -/

@[simp] theorem takeKey_dt (s : State) (k : Nib) (dir : KeyDir) : (s.takeKey k dir).dt = s.dt := by
  unfold State.takeKey; split <;> rfl

@[simp] theorem takeKey_keys (s : State) (k : Nib) (dir : KeyDir) :
    (s.takeKey k dir).keys = keysAfter s.keys k dir := by
  unfold State.takeKey; split <;> rfl

theorem takesInputs_of_live {s : State} (hl : s.session = .live) (hf : noFault s) : s.takesInputs = true := by
  unfold State.takesInputs
  rw [hl]
  cases hm : s.mode with
  | faulted f => exact absurd hm (hf f)
  | running => rfl
  | awaitingKey r => rfl

/-- Settles O51, by comparing the run with the run under another DT; each input is looked at on its own. -/
theorem delayTimerHasItsReadersAndWriters : Obligations.DelayTimerHasItsReadersAndWriters := by
  refine ⟨fun i s t h => (exec_writesOwnFields h).dt, fun i s t d hi h => ?_, fun s e => ?_, fun s => ?_⟩
  · obtain ⟨e, he, hcase⟩ := exec_with_dt_keys (d := d) (.inr hi) (.inl rfl) h
    refine he.trans ?_
    rw [(exec_writesOwnFields h).keys]
    obtain ⟨x, rfl, rfl⟩ | ⟨hno, rfl⟩ := hcase
    · rfl
    · split
      · exact absurd rfl (hno _)
      · rfl
  · cases e with
    | instruction => exact .inl rfl
    | key k dir => left; simp only [State.takeInput]; split <;> simp
    | tick => exact .inr (.inl rfl)
    | reset image => exact .inr (.inr (.inl ⟨image, rfl⟩))
    | shutdown => exact .inr (.inr (.inr rfl))
  · simp only [State.takeInput]
    split
    · rw [takeTick_dt, countDown_toNat]; omega
    · exact Nat.le_refl _

/-- Settles O52, by comparing the run with the run under another KEYS; a key event is read bit by bit. -/
theorem keyMaskHasItsReadersAndWriters : Obligations.KeyMaskHasItsReadersAndWriters := by
  refine ⟨fun i s t h => (exec_writesOwnFields h).keys, fun i s t k hi h => ?_, fun s e => ?_,
    fun s k dir hl hf => ?_⟩
  · obtain ⟨e, he, hcase⟩ := exec_with_dt_keys (k := k) (.inl rfl) (.inr hi) h
    obtain ⟨-, -, rfl⟩ | ⟨hno, rfl⟩ := hcase
    · exact he
    · rw [(exec_writesOwnFields h).dt.resolve_right fun ⟨x, hx⟩ => hno x hx]
      exact he
  · cases e with
    | instruction => exact .inl rfl
    | key k dir => exact .inr (.inl ⟨k, dir, rfl⟩)
    | tick => left; simp only [State.takeInput]; split <;> simp
    | reset image => exact .inr (.inr (.inl ⟨image, rfl⟩))
    | shutdown => exact .inr (.inr (.inr rfl))
  · simp only [State.takeInput, takesInputs_of_live hl hf, if_true, takeKey_keys]
    cases dir with
    | down => exact ⟨by simp [keysAfter_down], fun j hj => by simp [keysAfter_down, hj]⟩
    | up => exact ⟨by simp [keysAfter_up], fun j hj => by simp [keysAfter_up, hj]⟩

/-! ### What a step can do -/

/-- The core's turn answers only in RUNNING of an open session, and then it is an instruction step. -/
theorem coreTurn_next {s t : State} (h : coreTurn s = .next t) :
    s.session = .live ∧ s.mode = .running ∧ instructionStep s = .next t := by
  unfold coreTurn at h
  split at h
  · cases h
  · cases h
  · split at h
    · exact ⟨‹_›, ‹_›, h⟩
    · cases h
    · cases h

/-- A scheduled input that is not admitted is the named stop (40_engine.md R142). -/
theorem step_not_admitted {s : State} {e : Event} {rest : List Event} (h : s.schedule = e :: rest)
    (he : e ≠ .instruction) (ha : s.admits e = false) : step s = .fault .sessionEnded := by
  unfold step nextStep
  rw [h]
  cases e <;> simp_all

/-- A step that answers: an instruction step in the core's turn, or an admitted input (40_engine.md R120). -/
theorem step_next_cases {s t : State} (h : step s = .next t) :
    ∃ rest, (CoreTurn s rest ∧ instructionStep { s with schedule := rest } = .next t) ∨
      ∃ e, InputTurn s e rest ∧ e ≠ .instruction ∧ s.admits e = true ∧
        t = State.takeInput { s with schedule := rest } e := by
  cases hsch : s.schedule with
  | nil =>
    obtain ⟨hlive, hrun, hturn⟩ := coreTurn_next ((step_unscheduled hsch).symm.trans h)
    exact ⟨[], .inl ⟨⟨hlive, hrun, .inl ⟨hsch, rfl⟩⟩, hsch ▸ hturn⟩⟩
  | cons e rest =>
    refine ⟨rest, ?_⟩
    by_cases he : e = .instruction
    · subst he
      obtain ⟨hlive, hrun, hturn⟩ := coreTurn_next ((step_instruction hsch).symm.trans h)
      exact .inl ⟨⟨hlive, hrun, .inr hsch⟩, hturn⟩
    · cases ha : s.admits e with
      | true => exact .inr ⟨e, hsch, he, ha, (Host.Outcome.next.inj ((step_admitted hsch he ha).symm.trans h)).symm⟩
      | false => exact nomatch (step_not_admitted hsch he ha).symm.trans h

/-- An instruction step that answers: the fetch faults, the fetched word is an instruction that answers, or it is
unsupported and only a report is added (40_engine.md R122, R127, R128). -/
theorem instructionStep_next_cases {s t : State} (h : instructionStep s = .next t) :
    (∃ f, fetchCheck s = some f ∧ t = s.enterFault f) ∨
    (fetchCheck s = none ∧ ∃ i, decodeWord s.wordAtPc = .ok i ∧ exec i s.fetch = .next t) ∨
    (fetchCheck s = none ∧ ∃ reports, t = { s.fetch with reports := reports }) := by
  cases hf : fetchCheck s with
  | some f =>
    rw [instructionStep_of_fetch_fault hf] at h
    exact .inl ⟨f, rfl, (Host.Outcome.next.inj h).symm⟩
  | none =>
    cases hd : decodeWord s.wordAtPc with
    | ok i => exact .inr (.inl ⟨rfl, i, rfl, instructionStep_of_decoded hf hd ▸ h⟩)
    | error e =>
      rw [instructionStep_of_unsupported hf hd] at h
      exact .inr (.inr ⟨rfl, _, (Host.Outcome.next.inj h).symm⟩)

/-- The record of a fetch fault: PC is odd, or even and out of range (40_engine.md R122). -/
theorem fetchCheck_some_cases {s : State} {f : FaultRecord} (h : fetchCheck s = some f) :
    (s.pc.toNat % 2 = 1 ∧ f = ⟨.misalignedFetch, s.pc, s.ir, s.pc⟩) ∨
    (0xFFF < s.pc.toNat ∧ f = ⟨.outOfBoundsAccess, s.pc, s.ir, s.pc⟩) := by
  by_cases hodd : s.pc.toNat % 2 = 1
  · exact .inl ⟨hodd, Option.some.inj (h.symm.trans (fetchCheck_odd s hodd))⟩
  · have heven : s.pc.toNat % 2 = 0 := by omega
    by_cases hhigh : 0xFFF < s.pc.toNat
    · exact .inr ⟨hhigh, Option.some.inj (h.symm.trans (fetchCheck_high s heven hhigh))⟩
    · exact nomatch h.symm.trans ((fetchCheck_eq_none_iff s).2 ⟨heven, by omega⟩)

/-! ### The word of LD Vx, K -/

/-- One test of a decoder's chain: what both answers give, the chain gives. -/
theorem imp_of_ite_eq {α : Type} {p q : Prop} [Decidable p] {a b c : α} (ha : p → a = c → q)
    (hb : ¬ p → b = c → q) : (if p then a else b) = c → q := by
  by_cases h : p
  · rw [if_pos h]; exact ha h
  · rw [if_neg h]; exact hb h

theorem decodeClass0_ne_ldVxK (w : Word) (r : Reg) : decodeClass0 w ≠ .ok (.ldVxK r) := by
  unfold decodeClass0
  iterate 2 refine imp_of_ite_eq (fun _ => nofun) fun _ => ?_
  exact nofun

theorem decodeClass8_ne_ldVxK (w : Word) (r : Reg) : decodeClass8 w ≠ .ok (.ldVxK r) := by
  unfold decodeClass8
  iterate 9 refine imp_of_ite_eq (fun _ => nofun) fun _ => ?_
  exact nofun

theorem decodeClassE_ne_ldVxK (w : Word) (r : Reg) : decodeClassE w ≠ .ok (.ldVxK r) := by
  unfold decodeClassE
  iterate 2 refine imp_of_ite_eq (fun _ => nofun) fun _ => ?_
  exact nofun

theorem fields_of_decodeClassF_ldVxK {w : Word} {r : Reg} :
    decodeClassF w = .ok (.ldVxK r) → fieldNN w = 0x0A ∧ fieldX w = r := by
  unfold decodeClassF
  refine imp_of_ite_eq (fun _ => nofun) fun _ => ?_
  refine imp_of_ite_eq (fun hnn h => ⟨hnn, Instr.ldVxK.inj (Except.ok.inj h)⟩) fun _ => ?_
  iterate 7 refine imp_of_ite_eq (fun _ => nofun) fun _ => ?_
  exact nofun

/-- The word of a decoded LD Vx, K is class F with 0A in its low byte (30_encoding.md R94, R95). -/
theorem fields_of_decode_ldVxK {w : Word} {r : Reg} (h : decodeWord w = .ok (.ldVxK r)) :
    fieldC w = 0xF ∧ fieldNN w = 0x0A ∧ fieldX w = r := by
  rw [decodeWord_eq] at h
  unfold decodeWordWith at h
  split at h
  case h_1 => exact absurd h (decodeClass0_ne_ldVxK w r)
  case h_9 => exact absurd h (decodeClass8_ne_ldVxK w r)
  case h_15 => exact absurd h (decodeClassE_ne_ldVxK w r)
  case h_16 =>
    have hlt := (fieldC w).isLt
    have hclass : (fieldC w).toNat = 15 := by simp only [imp_false] at *; omega
    exact ⟨BitVec.eq_of_toNat_eq hclass, fields_of_decodeClassF_ldVxK h⟩
  all_goals exact nomatch h

theorem encodeWord_of_decode_ldVxK {w : Word} {r : Reg} (h : decodeWord w = .ok (.ldVxK r)) :
    w = encodeWord (.ldVxK r) := by
  obtain ⟨hc, hnn, hx⟩ := fields_of_decode_ldVxK h
  rw [← packXNN_fields w, hc, hnn, hx, encodeWord]

/-! ### The invariant -/

/-- The invariant speaks of memory, PC, IR, SP, STACK and MODE only. -/
theorem Inv.of_eq {s t : State} (h : Inv s) (hmem : t.mem = s.mem) (hpc : t.pc = s.pc) (hir : t.ir = s.ir)
    (hsp : t.sp = s.sp) (hstack : t.stack = s.stack) (hmode : t.mode = s.mode) : Inv t where
  mem_wf := hmem ▸ h.mem_wf
  pc_bound := hpc ▸ h.pc_bound
  stack_fits := StackFits.of_eq h.stack_fits hstack
  waiting r hr := hir ▸ h.waiting r (hmode ▸ hr)
  faulted f hf := by
    unfold recordFits
    rw [hir, hpc, hsp]
    exact h.faulted f (hmode ▸ hf)

/-- Fault entry keeps the invariant when its record fits. -/
theorem enterFault_inv {s : State} {f : FaultRecord} (hmem : Memory.wf s.mem) (hpc : s.pc.toNat ≤ 0x10FE)
    (hstack : StackFits s) (hfits : recordFits f s) :
    Inv (s.enterFault f) where
  mem_wf := hmem
  pc_bound := hpc
  stack_fits := hstack
  waiting r hr := nomatch hr
  faulted g hg := by
    obtain rfl : f = g := Mode.faulted.inj hg
    exact hfits

/-! ### Inputs keep the invariant -/

theorem launch_inv {image : List Byte} (h : image.length ≤ hw.progMax) : Inv (State.launch image) :=
  inv_of_running (launch_mem_wf image h) (by simp [State.launch, State.reset]) reset_stack_fits rfl

theorem takeKey_inv {s : State} (h : Inv s) (k : Nib) (dir : KeyDir) : Inv (s.takeKey k dir) := by
  unfold State.takeKey
  split
  · exact inv_of_running h.mem_wf h.pc_bound h.stack_fits rfl
  · exact h.of_eq rfl rfl rfl rfl rfl rfl

theorem resetWith_inv {s : State} (h : Inv s) (image : List Byte) : Inv (s.resetWith image) := by
  unfold State.resetWith
  split
  · exact (launch_inv ‹_›).of_eq rfl rfl rfl rfl rfl rfl
  · split
    · exact h
    · exact h.of_eq rfl rfl rfl rfl rfl rfl

theorem takeInput_inv {s : State} (h : Inv s) (e : Event) : Inv (State.takeInput s e) := by
  cases e with
  | instruction => exact h
  | key k dir =>
    simp only [State.takeInput]
    split
    · exact takeKey_inv h k dir
    · exact h
  | tick =>
    simp only [State.takeInput]
    split
    · exact h.of_eq rfl rfl rfl rfl rfl rfl
    · exact h
  | reset image => exact resetWith_inv h image
  | shutdown => exact invariantHoldsAtReset.of_eq rfl rfl rfl rfl rfl rfl

/-! ### Instruction steps keep the invariant -/

/-- What an instruction finds after its fetch in a state of the invariant: RUNNING, and PC even, at most 0x1000. -/
structure Fetched (s : State) : Prop where
  mem_wf : Memory.wf s.mem
  pc_fits : s.pc.toNat ≤ 0x1000 ∧ s.pc.toNat % 2 = 0
  stack_fits : StackFits s
  running : s.mode = .running

theorem fetch_fetched {s : State} (h : Inv s) (hmode : s.mode = .running) (hf : fetchCheck s = none) :
    Fetched s.fetch where
  mem_wf := h.mem_wf
  pc_fits := by
    have := (fetchCheck_eq_none_iff s).1 hf
    rw [fetch_pc, BitVec.toNat_add]
    simp only [BitVec.reduceToNat]
    omega
  stack_fits := h.stack_fits
  running := hmode

/-- A checked store lies inside the address space. -/
theorem access_fits {a k : Nat} {kind : FaultKind} (h : (oob a k).map (kind, ·) = none) :
    a + (k + 1) ≤ hw.memSize := by
  have := (oob_eq_none_iff a k).1 (Option.map_eq_none_iff.1 h)
  rw [hw_memSize]
  omega

theorem effect_mem_wf {i : Instr} {s : State} (h : Fetched s) (hr : raisedBy i s = none) :
    Memory.wf (effect i s).mem := by
  obtain heq | ⟨x, rfl⟩ | ⟨x, rfl⟩ := (effect_writesOwnFields i s).mem
  · exact heq ▸ h.mem_wf
  · exact writeBytes_wf _ _ _ h.mem_wf (access_fits hr)
  · refine writeBytes_wf _ _ _ h.mem_wf ?_
    have := access_fits hr
    have := List.length_take_le (x.toNat + 1) s.v.toList
    simp only [State.regsUpTo]
    omega

theorem effect_stack_fits {i : Instr} {s : State} (h : Fetched s) (hr : raisedBy i s = none) : StackFits (effect i s) := by
  obtain heq | ⟨nnn, rfl⟩ := (effect_writesOwnFields i s).stack
  · exact h.stack_fits.of_eq heq
  · have hsp : s.sp.val < 12 := by
      have : ¬ s.sp.val = 12 := by simpa [raisedBy] using hr
      omega
    intro w hw
    simp only [effect, push_of_lt s s.pc hsp, jump_stack, Vector.toList_set] at hw
    obtain hw | rfl := List.mem_or_eq_of_mem_set hw
    · exact h.stack_fits w hw
    · exact h.pc_fits

theorem address_toNat (nnn : Addr12) : (address nnn).toNat = nnn.toNat := by
  simp only [address, BitVec.toNat_setWidth]
  omega

theorem skipIf_pc_bound {s : State} (h : s.pc.toNat ≤ 0x1000) (c : Bool) : (s.skipIf c).pc.toNat ≤ 0x10FE := by
  cases c
  · exact h.trans (by decide)
  · rw [skipIf_pc, if_pos rfl, BitVec.toNat_add]
    simp only [BitVec.reduceToNat]
    omega

/-- PC after an effect is at most 0x10FE, which JP V0, nnn reaches with nnn = 0xFFF and V0 = 0xFF (10_state.md R34). -/
theorem effect_pc_bound {i : Instr} {s : State} (h : Fetched s) (hr : raisedBy i s = none) :
    (effect i s).pc.toNat ≤ 0x10FE := by
  obtain hkept | hwrites := (effect_writesOwnFields i s).pc
  · exact hkept ▸ h.pc_fits.1.trans (by decide)
  · cases i
    case ret =>
      have hsp : s.sp.val ≠ 0 := by simpa [raisedBy] using hr
      have hentry := h.stack_fits (s.stack[s.sp.val - 1]) (Vector.mem_toList_iff.2 (Vector.getElem_mem _))
      simp only [effect, pop_of_pos s hsp, jump_pc]
      omega
    case call nnn =>
      have hsp : s.sp.val ≠ 12 := by simpa [raisedBy] using hr
      simp only [effect, push_of_lt s s.pc (by omega), jump_pc, address_toNat]
      omega
    case jp nnn =>
      simp only [effect, jump_pc, address_toNat]
      omega
    case jpV0 nnn =>
      simp only [effect, jump_pc, BitVec.toNat_add, BitVec.toNat_setWidth, address_toNat]
      omega
    case seImm | sneImm | seReg | sneReg | skp | sknp => exact skipIf_pc_bound h.pc_fits.1 _
    all_goals exact nomatch hwrites

theorem effect_inv {i : Instr} {s : State} (h : Fetched s) (hir : ∀ r, i = .ldVxK r → s.ir = encodeWord (.ldVxK r))
    (hr : raisedBy i s = none) : Inv (effect i s) := by
  have hmode := effect_mode i s
  rw [h.running] at hmode
  refine ⟨effect_mem_wf h hr, effect_pc_bound h hr, effect_stack_fits h hr, fun r hwait => ?_, fun f hfault => ?_⟩
  · obtain hrun | ⟨q, rfl, hq⟩ := hmode
    · exact nomatch hrun.symm.trans hwait
    · obtain rfl : q = r := Mode.awaitingKey.inj (hq.symm.trans hwait)
      exact hir q rfl
  · obtain hrun | ⟨q, -, hq⟩ := hmode
    · exact nomatch hrun.symm.trans hfault
    · exact nomatch hq.symm.trans hfault

/-- The record of a fault of the execute part fits the state (10_state.md R45, 40_engine.md R132). -/
theorem raisedBy_recordFits {i : Instr} {s : State} {kind : FaultKind} {addr : Nat}
    (h : raisedBy i s = some (kind, addr)) :
    recordFits ⟨kind, s.pc - 2, s.ir, BitVec.ofNat 16 addr⟩ s := by
  refine ⟨rfl, .inr rfl, ?_⟩
  obtain ⟨rfl, rfl, -, hsp⟩ | ⟨rfl, rfl, -, hsp⟩ | ⟨rfl, hbad⟩ := raisedBy_cases h
  · exact ⟨rfl, hsp⟩
  · exact ⟨rfl, hsp⟩
  · obtain ⟨-, rfl⟩ : _ ∧ max s.atI 0x1000 = addr := by simpa [firstBadAddress] using hbad
    have : s.atI < 0x10000 := s.i.isLt
    show 0xFFF < (BitVec.ofNat 16 _).toNat
    rw [BitVec.toNat_ofNat]
    omega

theorem exec_inv {i : Instr} {s t : State} (h : Fetched s) (hir : ∀ r, i = .ldVxK r → s.ir = encodeWord (.ldVxK r))
    (hexec : exec i s = .next t) : Inv t := by
  obtain ⟨kind, addr, hraised, rfl⟩ | ⟨hnone, rfl⟩ := exec_next_cases hexec
  · exact enterFault_inv h.mem_wf (h.pc_fits.1.trans (by decide)) h.stack_fits (raisedBy_recordFits hraised)
  · exact effect_inv h hir hnone

theorem fetchCheck_recordFits {s : State} {f : FaultRecord} (h : fetchCheck s = some f) : recordFits f s := by
  obtain ⟨hodd, rfl⟩ | ⟨hhigh, rfl⟩ := fetchCheck_some_cases h
  · exact ⟨rfl, .inl rfl, rfl, hodd⟩
  · exact ⟨rfl, .inl rfl, hhigh⟩

theorem instructionStep_inv {s t : State} (h : Inv s) (hmode : s.mode = .running)
    (hstep : instructionStep s = .next t) : Inv t := by
  obtain ⟨f, hf, rfl⟩ | ⟨hf, i, hd, hexec⟩ | ⟨hf, reports, rfl⟩ := instructionStep_next_cases hstep
  · exact enterFault_inv h.mem_wf h.pc_bound h.stack_fits (fetchCheck_recordFits hf)
  · refine exec_inv (fetch_fetched h hmode hf) ?_ hexec
    rintro r rfl
    exact encodeWord_of_decode_ldVxK hd
  · have hfetched := fetch_fetched h hmode hf
    exact inv_of_running hfetched.mem_wf (hfetched.pc_fits.1.trans (by decide)) hfetched.stack_fits hmode

/-- Settles O56: instruction steps and inputs keep the invariant, and a step is one or the other. -/
theorem everyStepKeepsTheInvariant : Obligations.EveryStepKeepsTheInvariant := by
  intro s t h hstep
  have hs (rest : List Event) : Inv { s with schedule := rest } := h.of_eq rfl rfl rfl rfl rfl rfl
  obtain ⟨rest, ⟨⟨-, hmode, -⟩, hturn⟩ | ⟨e, -, -, -, rfl⟩⟩ := step_next_cases hstep
  · exact instructionStep_inv (hs rest) hmode hturn
  · exact takeInput_inv (hs rest) e

end Sys2Proof.Machine
end

section
/-! SUPPORT. Proofs about memory (20_memory.md): the big-endian word a fetch reads (R64), a stored instruction that the
next fetch reads (R75), and accesses above 0xFFF (R63, R77). -/

namespace Sys2Proof.Machine

open Sys2Proof.Claims

/-! ### Accesses out of range -/

/-- An instruction that touches no byte has no bad address. -/
theorem firstBadAddress_of_no_bytes {i : Instr} (s : State) (h : bytesTouched i = 0) :
    firstBadAddress i s = none := if_pos (.inl h)

/-- A bad address among the bytes an instruction touches makes it raise OutOfBoundsAccess there (20_memory.md R77). -/
theorem raisedBy_of_firstBadAddress {i : Instr} {s : State} {bad : Nat} (h : firstBadAddress i s = some bad) :
    raisedBy i s = some (.outOfBoundsAccess, bad) := by
  cases i
  case drw x y n =>
    have hn : n ≠ 0 := by
      rintro rfl
      exact nomatch (firstBadAddress_of_no_bytes s rfl).symm.trans h
    have hpos : n.toNat ≠ 0 := fun h0 => hn (BitVec.eq_of_toNat_eq h0)
    rw [firstBadAddress_eq_oob s (k := n.toNat - 1) (by simp only [bytesTouched]; omega)] at h
    exact (if_neg hn).trans (congrArg (Option.map _) h)
  case ldB | ldMemVx | ldVxMem =>
    rw [firstBadAddress_eq_oob s rfl] at h
    exact congrArg (Option.map _) h
  all_goals exact nomatch (firstBadAddress_of_no_bytes s rfl).symm.trans h

/-- The fault `raisedBy` names is raised, and nothing but MODE changes (40_engine.md R131). -/
theorem raises_of_raisedBy {i : Instr} {s : State} {kind : FaultKind} {addr : Nat}
    (h : raisedBy i s = some (kind, addr)) : Raises i s kind addr := by
  rw [Raises, exec_eq, h]
  exact raise_eq kind addr s

/-- Settles O31: the bad address is what the access check finds, and raising it writes MODE alone. -/
theorem outOfRangeAccessDoesNothingElse : Obligations.OutOfRangeAccessDoesNothingElse :=
  fun _ _ _ h => raises_of_raisedBy (raisedBy_of_firstBadAddress h)

/-! ### The fetched word -/

/-- An instruction that ends in FAULTED raised the fault itself, so it changed nothing but MODE (40_engine.md R131). -/
theorem exec_faulted {i : Instr} {s t : State} {f : FaultRecord} (hs : noFault s) (h : exec i s = .next t)
    (ht : t.mode = .faulted f) : t = s.enterFault f := by
  obtain ⟨_, _, -, rfl⟩ | ⟨-, rfl⟩ := exec_next_cases h
  · cases ht
    rfl
  · obtain hkept | ⟨_, -, hwait⟩ := effect_mode i s
    · exact absurd (hkept.symm.trans ht) (hs f)
    · exact nomatch hwait.symm.trans ht

/-- An execute part that ends in FAULTED changed nothing but MODE; an unsupported word does not end there
(40_engine.md R127, R131). -/
theorem executeIr_faulted {s t : State} {f : FaultRecord} (hs : noFault s) (h : executeIr s = .next t)
    (ht : t.mode = .faulted f) : t = s.enterFault f := by
  unfold executeIr at h
  split at h
  · exact exec_faulted hs h ht
  · cases h
    exact absurd ht (hs f)

/-- An instruction step whose fetch passes the checks is the execute part of the fetched word (40_engine.md R128). -/
theorem instructionStep_of_fetch {s : State} (h : fetchCheck s = none) : instructionStep s = executeIr s.fetch := by
  simp [instructionStep, h]

/-- Settles O6: the state `s.fetch` is the one the execute part starts from, and a fault there changes MODE alone. -/
theorem fetchReadsTheBigEndianWord : Obligations.FetchReadsTheBigEndianWord := by
  intro s hlive hrun heven hpc
  have hcheck : fetchCheck s = none := (fetchCheck_eq_none_iff s).2 ⟨heven, by omega⟩
  have hnoFault : noFault s.fetch := by simp [noFault, hrun]
  refine ⟨s.fetch, (coreTurn_running hlive hrun).trans (instructionStep_of_fetch hcheck), rfl,
    wordOfBytes_toNat _ _, BitVec.toNat_add s.pc 2, fun t f hexec ht => ?_⟩
  rw [executeIr_faulted hnoFault hexec ht]
  exact ⟨rfl, rfl⟩

/-! ### A stored instruction -/

/-- The core's turn, scheduled or not, is an instruction step (40_engine.md R120). -/
theorem step_of_coreTurn {s : State} {rest : List Event} (h : CoreTurn s rest) :
    step s = instructionStep { s with schedule := rest } := by
  obtain ⟨hlive, hrun, ⟨hnone, rfl⟩ | hsch⟩ := h
  · rw [step_unscheduled hnone, coreTurn_running hlive hrun, ← hnone]
  · exact (step_instruction hsch).trans (coreTurn_running hlive hrun)

/-- Two bytes that decode to an instruction are its big-endian word (20_memory.md R64). -/
theorem decodeWord_of_decode_pair {hi lo : Byte} {i : Instr} (h : decode [hi, lo] = .ok (i, [])) :
    decodeWord (wordOfBytes hi lo) = .ok i := by
  rw [decode_pair] at h
  split at h
  · next hd =>
    cases h
    exact hd
  · cases h

/-- At the core's turn, with bytes at PC that decode to `i`, the step is `i` on the state the fetch left
(40_engine.md R128). -/
theorem step_of_decoded {s : State} {rest : List Event} {i : Instr} (hturn : CoreTurn s rest)
    (heven : s.pc.toNat % 2 = 0) (hpc : s.pc.toNat ≤ 0xFFE) (hd : decode (bytesAtPc s) = .ok (i, [])) :
    step s = exec i (afterFetch s rest) := by
  rw [step_of_coreTurn hturn]
  exact instructionStep_of_decoded ((fetchCheck_eq_none_iff _).2 ⟨heven, Nat.succ_le_succ hpc⟩)
    (decodeWord_of_decode_pair hd)

@[simp] theorem length_regsUpTo (s : State) (x : Reg) : (s.regsUpTo x).length = x.toNat + 1 := by
  have hx := x.isLt
  simp only [State.regsUpTo, List.length_take, Vector.length_toList]
  omega

/-- The byte at place q of the stored list is V[q] (43_index_memory.md R234). -/
theorem getD_regsUpTo {x q : Reg} (s : State) (h : q.toNat ≤ x.toNat) :
    (s.regsUpTo x).getD q.toNat 0 = s.readV q := by
  have hq := q.isLt
  simp [State.regsUpTo, State.readV, List.getD, Nat.lt_succ_of_le h, hq]

/-- LD [I], Vx in range stores V[0] .. V[x] from I on (43_index_memory.md R234). -/
theorem exec_ldMemVx {x : Reg} {s : State} (h : s.atI + x.toNat ≤ 0xFFF) :
    exec (.ldMemVx x) s = .next (s.storeBytes s.atI (s.regsUpTo x)) :=
  checkedAccess_of_le _ _ h

/-- After the registers up to x are stored from `a` on, V[q] is read at `a + q` (20_memory.md R71). -/
theorem readMem_storeBytes_regsUpTo {s : State} {a : Nat} {x q : Reg} (hwf : Memory.wf s.mem)
    (ha : a + x.toNat ≤ 0xFFF) (hq : q.toNat ≤ x.toNat) :
    (s.storeBytes a (s.regsUpTo x)).readMem (a + q.toNat) = s.readV q := by
  have hfits : a + (s.regsUpTo x).length ≤ hw.memSize := by
    rw [length_regsUpTo, hw_memSize]
    omega
  have hin : a ≤ a + q.toNat ∧ a + q.toNat < a + (s.regsUpTo x).length := by
    rw [length_regsUpTo]
    omega
  rw [State.readMem, storeBytes_mem, read_writeBytes _ _ _ _ hwf hfits, if_pos hin, Nat.add_sub_cancel_left,
    getD_regsUpTo s hq]

/-- Settles O11: the bytes at PC after the store are V[k] and V[k+1], so the step decodes and runs them. -/
theorem storedInstructionRunsNext : Obligations.StoredInstructionRunsNext := by
  intro s t x k j rest hwf hk hrange hexec hpc heven hturn hd
  obtain rfl : s.storeBytes s.atI (s.regsUpTo x) = t := Host.Outcome.next.inj ((exec_ldMemVx hrange).symm.trans hexec)
  have hnext : (k + 1 : Reg).toNat = k.toNat + 1 := by
    have hx := x.isLt
    bv_omega
  have hhi := readMem_storeBytes_regsUpTo (q := k) hwf hrange (by omega)
  have hlo := readMem_storeBytes_regsUpTo (q := k + 1) hwf hrange (hnext ▸ hk)
  rw [hnext, ← Nat.add_assoc] at hlo
  rw [← hpc] at hhi hlo
  rw [step_of_decoded hturn heven (by omega) (by rwa [bytesAtPc, hhi, hlo]), afterFetch, hhi, hlo]

end Sys2Proof.Machine
end

section
/-! SUPPORT. Proofs about the encoding (30_encoding.md): decoding and encoding are inverse (R91, R100), the opcode
table's rows (R96) and the unsupported words (R97). -/

namespace Sys2Proof

open Machine

/-! ### One test of the decoder -/

theorem decodeReg59_eq_ok_iff {strict : Bool} {w : Word} {i j : Instr} :
    decodeReg59 strict w i = .ok j ↔ (strict = true → fieldN w = 0) ∧ i = j := by
  cases strict
  case false => simp [decodeReg59]
  case true => by_cases h : fieldN w = 0#4 <;> simp [decodeReg59, h]

theorem decodeReg59_eq_error_iff {strict : Bool} {w : Word} {i : Instr} {e : DecodeError} :
    decodeReg59 strict w i = .error e ↔ (strict = true ∧ fieldN w ≠ 0) ∧ .unsupported w = e := by
  cases strict
  case false => simp [decodeReg59]
  case true => by_cases h : fieldN w = 0#4 <;> simp [decodeReg59, h]

/-- A chain of tests ends in an error when the first test fails and the rest of the chain does. -/
theorem ite_ok_eq_error_iff {ε α : Type} {p : Prop} [Decidable p] {a : α} {b : Except ε α} {e : ε} :
    (if p then .ok a else b) = .error e ↔ ¬ p ∧ b = .error e := by
  by_cases h : p <;> simp [h]

/-- 5XYN and 9XYN are instructions under STRICT_5_9 when n = 0 (30_encoding.md R97). -/
theorem lowNibble_wf_iff {strict : Bool} {n : Nib} : (!strict || n == 0) = true ↔ (strict = true → n = 0) := by
  cases strict <;> simp

/-! ### Decoding an encoded instruction -/

theorem decodeWordWith_encodeWord {strict : Bool} {i : Instr} (h : i.wfWith strict = true) :
    decodeWordWith strict (encodeWord i) = .ok i := by
  cases i
  case seReg | sneReg =>
    simpa [encodeWord, decodeWordWith, decodeReg59_eq_ok_iff] using lowNibble_wf_iff.1 h
  case cls | ret => rfl
  case ldReg | orReg | andReg | xorReg | addReg | subReg | shr | subnReg | shl =>
    simp [encodeWord, decodeWordWith, decodeClass8]
  case skp | sknp => simp [encodeWord, decodeWordWith, decodeClassE]
  case ldVxDt | ldVxK | ldDtVx | ldStVx | addI | ldF | ldB | ldMemVx | ldVxMem =>
    simp [encodeWord, decodeWordWith, decodeClassF]
  all_goals simp [encodeWord, decodeWordWith]

/-- Settles O1: the fields of the encoded word are the operands, and its two bytes are read back big-endian. -/
theorem decodingAnEncodedInstructionGivesItBack : Obligations.DecodingAnEncodedInstructionGivesItBack := by
  refine ⟨fun i rest h => ?_, fun _ _ h => decodeWordWith_encodeWord h⟩
  have hword : decodeWord (encodeWord i) = .ok i := decodeWordWith_encodeWord h
  rw [encode, List.cons_append, List.cons_append, List.nil_append, decode_pair, wordOfBytes_hi_lo, hword]

/-! ### Encoding a decoded instruction -/

/-- What a decoded instruction is to its word: it encodes to it and is well-formed (30_encoding.md R100). -/
def InstrOfWord (strict : Bool) (w : Word) (i : Instr) : Prop :=
  encodeWord i = w ∧ i.wfWith strict = true

theorem packNNN_of_fields {w : Word} {c : Nib} (hc : fieldC w = c) : packNNN c (fieldNNN w) = w :=
  hc ▸ packNNN_fields w

theorem packXNN_of_fields {w : Word} {c : Nib} (hc : fieldC w = c) : packXNN c (fieldX w) (fieldNN w) = w :=
  hc ▸ packXNN_fields w

theorem packXYN_of_fields {w : Word} {c : Nib} (hc : fieldC w = c) :
    packXYN c (fieldX w) (fieldY w) (fieldN w) = w :=
  hc ▸ packXYN_fields w

theorem instrOfWord_of_decodeClass0 {strict : Bool} {w : Word} {i : Instr} (hc : fieldC w = 0x0) :
    decodeClass0 w = .ok i → InstrOfWord strict w i := by
  have hw {a : Addr12} (ha : fieldNNN w = a) : packNNN 0x0 a = w := ha ▸ packNNN_of_fields hc
  unfold decodeClass0
  iterate 2 refine imp_of_ite_eq (fun ha h => Except.ok.inj h ▸ ⟨hw ha, rfl⟩) fun _ => ?_
  exact nofun

theorem instrOfWord_of_decodeClass8 {strict : Bool} {w : Word} {i : Instr} (hc : fieldC w = 0x8) :
    decodeClass8 w = .ok i → InstrOfWord strict w i := by
  have hw {n : Nib} (hn : fieldN w = n) : packXYN 0x8 (fieldX w) (fieldY w) n = w := hn ▸ packXYN_of_fields hc
  unfold decodeClass8
  iterate 9 refine imp_of_ite_eq (fun hn h => Except.ok.inj h ▸ ⟨hw hn, rfl⟩) fun _ => ?_
  exact nofun

theorem instrOfWord_of_decodeClassE {strict : Bool} {w : Word} {i : Instr} (hc : fieldC w = 0xE) :
    decodeClassE w = .ok i → InstrOfWord strict w i := by
  have hw {nn : Byte} (hnn : fieldNN w = nn) : packXNN 0xE (fieldX w) nn = w := hnn ▸ packXNN_of_fields hc
  unfold decodeClassE
  iterate 2 refine imp_of_ite_eq (fun hnn h => Except.ok.inj h ▸ ⟨hw hnn, rfl⟩) fun _ => ?_
  exact nofun

theorem instrOfWord_of_decodeClassF {strict : Bool} {w : Word} {i : Instr} (hc : fieldC w = 0xF) :
    decodeClassF w = .ok i → InstrOfWord strict w i := by
  have hw {nn : Byte} (hnn : fieldNN w = nn) : packXNN 0xF (fieldX w) nn = w := hnn ▸ packXNN_of_fields hc
  unfold decodeClassF
  iterate 9 refine imp_of_ite_eq (fun hnn h => Except.ok.inj h ▸ ⟨hw hnn, rfl⟩) fun _ => ?_
  exact nofun

theorem instrOfWord_of_decodeWordWith {strict : Bool} {w : Word} {i : Instr}
    (h : decodeWordWith strict w = .ok i) : InstrOfWord strict w i := by
  unfold decodeWordWith at h
  split at h
  case h_1 hc => exact instrOfWord_of_decodeClass0 (BitVec.eq_of_toNat_eq hc) h
  case h_9 hc => exact instrOfWord_of_decodeClass8 (BitVec.eq_of_toNat_eq hc) h
  case h_15 hc => exact instrOfWord_of_decodeClassE (BitVec.eq_of_toNat_eq hc) h
  case h_16 =>
    have hlt := (fieldC w).isLt
    have hc : (fieldC w).toNat = 15 := by simp only [imp_false] at *; omega
    exact instrOfWord_of_decodeClassF (BitVec.eq_of_toNat_eq hc) h
  case h_6 hc | h_10 hc =>
    obtain ⟨hstrict, rfl⟩ := decodeReg59_eq_ok_iff.1 h
    exact ⟨packXYN_of_fields (BitVec.eq_of_toNat_eq hc), lowNibble_wf_iff.2 hstrict⟩
  case h_14 hc => exact Except.ok.inj h ▸ ⟨packXYN_of_fields (BitVec.eq_of_toNat_eq hc), rfl⟩
  case h_2 hc | h_3 hc | h_11 hc | h_12 hc =>
    exact Except.ok.inj h ▸ ⟨packNNN_of_fields (BitVec.eq_of_toNat_eq hc), rfl⟩
  case h_4 hc | h_5 hc | h_7 hc | h_8 hc | h_13 hc =>
    exact Except.ok.inj h ▸ ⟨packXNN_of_fields (BitVec.eq_of_toNat_eq hc), rfl⟩

/-- Settles O2: each branch of the decoder knows class and sub-opcode, and a word is its fields. -/
theorem decodedInstructionEncodesToItsWord : Obligations.DecodedInstructionEncodesToItsWord :=
  fun _ _ _ h => instrOfWord_of_decodeWordWith h

/-! ### The opcode table -/

theorem opcodeRow_matches_encodeWord (i : Instr) : (opcodeRow i).matches (encodeWord i) = true := by
  open Laws.RowMatch in
  cases i
  exacts [cls, ret, jp _, call _, seImm _ _, sneImm _ _, seReg _ _ _, ldImm _ _, addImm _ _, ldReg _ _, orReg _ _,
    andReg _ _, xorReg _ _, addReg _ _, subReg _ _, shr _ _, subnReg _ _, shl _ _, sneReg _ _ _, ldI _, jpV0 _,
    rnd _ _, drw _ _ _, skp _, sknp _, ldVxDt _, ldVxK _, ldDtVx _, ldStVx _, addI _, ldF _, ldB _, ldMemVx _,
    ldVxMem _]

/-- Where the mask is all ones, any two words of a row agree. -/
theorem extractLsb'_eq_of_matches {r : OpcodeRow} {u w : Word} (hu : r.matches u = true) (hw : r.matches w = true)
    (start len : Nat) (hmask : r.mask.extractLsb' start len = BitVec.allOnes len) :
    w.extractLsb' start len = u.extractLsb' start len := by
  have hfixed {v : Word} (h : r.matches v = true) : v.extractLsb' start len = r.pattern.extractLsb' start len := by
    rw [← eq_of_beq h, BitVec.extractLsb'_and, hmask, BitVec.and_allOnes]
  exact (hfixed hw).trans (hfixed hu).symm

/-- A word of a row decodes to an instruction of that row: it has the class and the sub-opcode of the row's encoded
words, at which the decoder looks. -/
theorem decodeWord_of_matches {w : Word} {i : Instr} (h : (opcodeRow i).matches w = true) :
    ∃ j, decodeWord w = .ok j ∧ opcodeRow j = opcodeRow i := by
  have hsame := extractLsb'_eq_of_matches (opcodeRow_matches_encodeWord i) h
  have hc : fieldC w = fieldC (encodeWord i) := hsame 12 4 (by cases i <;> simp [opcodeRow])
  rw [decodeWord_eq]
  cases i
  case cls | ret =>
    have hnnn : fieldNNN w = fieldNNN (encodeWord _) := hsame 0 12 (by simp only [opcodeRow]; decide)
    simp [decodeWordWith, hc, decodeClass0, hnnn, encodeWord, opcodeRow]
  case ldReg | orReg | andReg | xorReg | addReg | subReg | shr | subnReg | shl =>
    have hn : fieldN w = fieldN (encodeWord _) := hsame 0 4 (by simp only [opcodeRow]; decide)
    simp [decodeWordWith, hc, decodeClass8, hn, encodeWord, opcodeRow]
  case skp | sknp =>
    have hnn : fieldNN w = fieldNN (encodeWord _) := hsame 0 8 (by simp only [opcodeRow]; decide)
    simp [decodeWordWith, hc, decodeClassE, hnn, encodeWord, opcodeRow]
  case ldVxDt | ldVxK | ldDtVx | ldStVx | addI | ldF | ldB | ldMemVx | ldVxMem =>
    have hnn : fieldNN w = fieldNN (encodeWord _) := hsame 0 8 (by simp only [opcodeRow]; decide)
    simp [decodeWordWith, hc, decodeClassF, hnn, encodeWord, opcodeRow]
  all_goals simp [decodeWordWith, hc, decodeReg59, encodeWord, opcodeRow]

/-- Settles O3: a decoded word is an encoded one, which its row matches; and a word has one decoded instruction, so
one row. -/
theorem decoderAgreesWithTheOpcodeTable : Obligations.DecoderAgreesWithTheOpcodeTable := by
  refine ⟨fun w i h => ?_, fun w i h => decodeWord_of_matches h, fun w i j hi hj => ?_⟩
  · obtain ⟨rfl, -⟩ := instrOfWord_of_decodeWordWith h
    exact opcodeRow_matches_encodeWord i
  · obtain ⟨a, ha, hrow⟩ := decodeWord_of_matches hi
    obtain ⟨b, hb, hrow'⟩ := decodeWord_of_matches hj
    obtain rfl : a = b := Except.ok.inj (ha.symm.trans hb)
    exact hrow.symm.trans hrow'

/-! ### The unsupported words -/

theorem fieldC_toNat (w : Word) : (fieldC w).toNat = w.toNat / 0x1000 := by
  simp only [fieldC, BitVec.extractLsb'_toNat, Nat.shiftRight_eq_div_pow]
  omega

theorem fieldNNN_toNat (w : Word) : (fieldNNN w).toNat = w.toNat % 0x1000 := by
  simp [fieldNNN, BitVec.extractLsb'_toNat]

theorem fieldNN_toNat (w : Word) : (fieldNN w).toNat = w.toNat % 0x100 := by
  simp [fieldNN, BitVec.extractLsb'_toNat]

theorem fieldN_toNat (w : Word) : (fieldN w).toNat = w.toNat % 0x10 := by
  simp [fieldN, BitVec.extractLsb'_toNat]

theorem decodeClass0_eq_error_iff {w : Word} {e : DecodeError} :
    decodeClass0 w = .error e ↔ w.toNat % 0x1000 ∉ [0x0E0, 0x0EE] ∧ .unsupported w = e := by
  simp [decodeClass0, ite_ok_eq_error_iff, BitVec.toNat_eq, fieldNNN_toNat, and_assoc]

theorem decodeClass8_eq_error_iff {w : Word} {e : DecodeError} :
    decodeClass8 w = .error e ↔
      w.toNat % 0x10 ∈ [0x8, 0x9, 0xA, 0xB, 0xC, 0xD, 0xF] ∧ .unsupported w = e := by
  have hlt : w.toNat % 0x10 < 0x10 := Nat.mod_lt _ (by decide)
  simp only [decodeClass8, ite_ok_eq_error_iff, Except.error.injEq, ← and_assoc, BitVec.toNat_eq, fieldN_toNat,
    BitVec.reduceToNat, List.mem_cons, List.not_mem_nil, or_false]
  refine and_congr_left fun _ => ?_
  omega

theorem decodeClassE_eq_error_iff {w : Word} {e : DecodeError} :
    decodeClassE w = .error e ↔ w.toNat % 0x100 ∉ [0x9E, 0xA1] ∧ .unsupported w = e := by
  simp [decodeClassE, ite_ok_eq_error_iff, BitVec.toNat_eq, fieldNN_toNat, and_assoc]

theorem decodeClassF_eq_error_iff {w : Word} {e : DecodeError} :
    decodeClassF w = .error e ↔
      w.toNat % 0x100 ∉ [0x07, 0x0A, 0x15, 0x18, 0x1E, 0x29, 0x33, 0x55, 0x65] ∧ .unsupported w = e := by
  simp [decodeClassF, ite_ok_eq_error_iff, BitVec.toNat_eq, fieldNN_toNat, and_assoc]

/-- The table of 30_encoding.md R97, by class and sub-field. -/
def UnsupportedWord (strict : Bool) (w : Word) : Prop :=
  (w.toNat / 0x1000 = 0x0 ∧ w.toNat % 0x1000 ∉ [0x0E0, 0x0EE]) ∨
  (w.toNat / 0x1000 = 0x8 ∧ w.toNat % 0x10 ∈ [0x8, 0x9, 0xA, 0xB, 0xC, 0xD, 0xF]) ∨
  (w.toNat / 0x1000 = 0xE ∧ w.toNat % 0x100 ∉ [0x9E, 0xA1]) ∨
  (w.toNat / 0x1000 = 0xF ∧
    w.toNat % 0x100 ∉ [0x07, 0x0A, 0x15, 0x18, 0x1E, 0x29, 0x33, 0x55, 0x65]) ∨
  (strict = true ∧ w.toNat / 0x1000 ∈ [0x5, 0x9] ∧ w.toNat % 0x10 ≠ 0)

theorem decodeWordWith_eq_error_iff {strict : Bool} {w : Word} {e : DecodeError} :
    decodeWordWith strict w = .error e ↔ UnsupportedWord strict w ∧ .unsupported w = e := by
  unfold decodeWordWith UnsupportedWord
  rw [fieldC_toNat]
  split
  case h_1 hc => simp [hc, decodeClass0_eq_error_iff]
  case h_9 hc => simp [hc, decodeClass8_eq_error_iff]
  case h_15 hc => simp [hc, decodeClassE_eq_error_iff]
  case h_16 =>
    have hlt := w.isLt
    have hc : w.toNat / 0x1000 = 0xF := by simp only [imp_false] at *; omega
    simp [hc, decodeClassF_eq_error_iff]
  case h_6 hc | h_10 hc => simp [hc, decodeReg59_eq_error_iff, BitVec.toNat_eq, fieldN_toNat]
  case h_2 hc | h_3 hc | h_4 hc | h_5 hc | h_7 hc | h_8 hc | h_11 hc | h_12 hc | h_13 hc | h_14 hc => simp [hc]

/-- Settles O4: the only error the decoder answers is that of a word in the table. -/
theorem unsupportedWordsAreThoseOfTheTable : Obligations.UnsupportedWordsAreThoseOfTheTable := by
  refine fun strict w => ⟨decodeWordWith_eq_error_iff.trans (and_iff_left rfl), fun h => ?_⟩
  cases hd : decodeWordWith strict w with
  | ok i => exact ⟨i, rfl⟩
  | error e => exact absurd ((decodeWordWith_eq_error_iff.1 hd).2 ▸ hd) h

/-! ### Examples -/

/-- Settles O5: the words are fixed, so the decoder's answers are evaluated. -/
theorem exampleBytesDecode : Obligations.ExampleBytesDecode := by
  unfold Obligations.ExampleBytesDecode
  decide

end Sys2Proof
end

section
/-! SUPPORT. Proofs about the engine (40_engine.md): the instruction step (R122 to R128), the faults of the execute part
(R131, R132), the inputs (R133 to R142) and what an instruction cannot see (R144). -/

namespace Sys2Proof.Machine

open Sys2Proof.Claims

/-! ### The instruction step -/

/-- Every instruction answers: with the fault it raises or with its effect (40_engine.md R128, R132). -/
theorem exists_exec_next (i : Instr) (s : State) : ∃ t, exec i s = .next t := by
  rw [exec_eq]
  cases raisedBy i s with
  | none => exact ⟨_, rfl⟩
  | some p => exact ⟨_, rfl⟩

/-- An unsupported word adds its report and changes nothing else (40_engine.md R127). -/
theorem unsupported_eq (s : State) :
    unsupported s = .next { s with reports := s.reports ++ [⟨s.pc - 2, s.ir⟩] } := rfl

/-- An instruction step answers, and leaves the schedule and the session alone (40_engine.md R128). -/
theorem exists_instructionStep_next (s : State) :
    ∃ t, instructionStep s = .next t ∧ t.schedule = s.schedule ∧ t.session = s.session := by
  cases hf : fetchCheck s with
  | some f => exact ⟨_, instructionStep_of_fetch_fault hf, rfl, rfl⟩
  | none =>
    cases hd : decodeWord s.wordAtPc with
    | ok i =>
      obtain ⟨t, ht⟩ := exists_exec_next i s.fetch
      have hown := exec_writesOwnFields ht
      exact ⟨t, (instructionStep_of_decoded hf hd).trans ht, hown.schedule, hown.session⟩
    | error e => exact ⟨_, (instructionStep_of_unsupported hf hd).trans (unsupported_eq _), rfl, rfl⟩

/-- Settles O10: an instruction faults or has its effect, and a step at the core's turn is an instruction step. -/
theorem everyInstructionStepHasANextState : Obligations.EveryInstructionStepHasANextState := by
  refine ⟨exists_exec_next, fun s rest hturn => ?_⟩
  obtain ⟨t, hstep, hschedule, -⟩ := exists_instructionStep_next { s with schedule := rest }
  exact ⟨t, (step_of_coreTurn hturn).trans hstep, hschedule⟩

/-- Settles O7, by the rule of the step at the core's turn. -/
theorem stepRunsTheDecodedInstruction : Obligations.StepRunsTheDecodedInstruction :=
  fun _ _ _ hturn heven hpc hd => step_of_decoded hturn heven hpc hd

/-- Two bytes that do not decode are an unsupported word (30_encoding.md R97). -/
theorem decodeWord_of_decode_pair_error {hi lo : Byte} {e : DecodeError} (h : decode [hi, lo] = .error e) :
    decodeWord (wordOfBytes hi lo) = .error e := by
  rw [decode_pair] at h
  split at h
  · cases h
  · next hd =>
    cases h
    exact hd

/-- Settles O8: the step is the unsupported-word rule on the fetched state, whose PC − 2 is the word's address. -/
theorem unsupportedWordIsATwoByteNoOp : Obligations.UnsupportedWordIsATwoByteNoOp := by
  refine ⟨fun s rest e hturn heven hpc hd => ?_, fun _ => rfl⟩
  have hcheck : fetchCheck { s with schedule := rest } = none :=
    (fetchCheck_eq_none_iff _).2 ⟨heven, Nat.succ_le_succ hpc⟩
  rw [step_of_coreTurn hturn, instructionStep_of_unsupported hcheck (decodeWord_of_decode_pair_error hd),
    unsupported_eq, fetch_pc, BitVec.add_sub_cancel]
  rfl

/-- With ODD_PC_FETCH = allow only the range is checked, PC first and then PC + 1 (40_engine.md R122). -/
theorem fetchCheckWith_allow (s : State) : fetchCheckWith .allow s =
    if 0xFFF < s.pc.toNat then some ⟨.outOfBoundsAccess, s.pc, s.ir, s.pc⟩
    else if 0xFFF < s.pc.toNat + 1 then some ⟨.outOfBoundsAccess, s.pc, s.ir, s.pc + 1⟩
    else none := by
  simp [fetchCheckWith]

/-- Settles O9: a fetch that faults enters FAULTED only, and the record is the one the fetch checks name. -/
theorem faultingFetchEntersFaultedOnly : Obligations.FaultingFetchEntersFaultedOnly := by
  refine ⟨fun s rest hturn => ?_, fun s => ?_⟩
  · rw [step_of_coreTurn hturn]
    exact ⟨fun hodd => instructionStep_of_fetch_fault (fetchCheck_odd _ hodd),
      fun heven hhigh => instructionStep_of_fetch_fault (fetchCheck_high _ heven hhigh)⟩
  · rw [fetchCheckWith_allow]
    refine ⟨fun hlow => ?_, fun hlast => ?_, fun hhigh => if_pos hhigh⟩
    · rw [if_neg (by omega), if_neg (by omega)]
    · have hpc : s.pc = 0xFFF := BitVec.eq_of_toNat_eq hlast
      rw [if_neg (by omega), if_pos (by omega), hpc]
      rfl

/-- The bytes where a run has its end are those of JP to that address (40_engine.md R147). -/
theorem bytesAtPc_of_atEnd {s : State} {h : Addr12} (hend : atEnd s h) : bytesAtPc s = encode (.jp h) := by
  obtain ⟨-, hpc, -, -, -, hhi, hlo⟩ := hend
  rw [bytesAtPc, hpc, address_toNat, hhi, hlo]
  rfl

/-- Where a run has ended the fetch reads the halting word (40_engine.md R147). -/
theorem afterFetch_of_atEnd {s : State} {h : Addr12} (hend : atEnd s h) (rest : List Event) :
    afterFetch s rest = { s with schedule := rest, ir := haltWord h, pc := s.pc + 2 } := by
  obtain ⟨-, hpc, -, -, -, hhi, hlo⟩ := hend
  rw [afterFetch, hpc, address_toNat, hhi, hlo, wordOfBytes_hi_lo]

/-- Settles O12: the step is JP to the address PC already holds, so of the fetch's writes only IR is left. -/
theorem endOfRunIsStable : Obligations.EndOfRunIsStable := by
  intro s rest h hturn hend
  have ⟨hrun, hpc, hplace⟩ := hend
  have ⟨heven, _, hle, _, _⟩ := hplace
  have hd : decode (bytesAtPc s) = .ok (.jp h, []) :=
    bytesAtPc_of_atEnd hend ▸ decodingAnEncodedInstructionGivesItBack.1 (.jp h) [] rfl
  rw [← address_toNat, ← hpc] at heven hle
  refine ⟨?_, hrun, hpc, hplace⟩
  rw [step_of_decoded hturn heven hle hd, afterFetch_of_atEnd hend]
  show Host.Outcome.next { s with schedule := rest, ir := haltWord h, pc := address h } = _
  rw [← hpc]

/-! ### Faults and suspensions of the execute part -/

theorem noFault_effect {i : Instr} {s : State} (h : noFault s) : noFault (effect i s) := by
  intro f hf
  obtain hkept | ⟨r, -, hwait⟩ := effect_mode i s
  · exact h f (hkept.symm.trans hf)
  · exact nomatch hwait.symm.trans hf

/-- The record of a fault of the execute part holds the instruction's own address and word (40_engine.md R132). -/
theorem exec_faulted_record {i : Instr} {s t : State} {f : FaultRecord} (hs : noFault s)
    (h : exec i s = .next t) (ht : t.mode = .faulted f) : f.pc = s.pc - 2 ∧ f.word = s.ir := by
  obtain ⟨_, _, -, rfl⟩ | ⟨-, rfl⟩ := exec_next_cases h
  · cases ht
    exact ⟨rfl, rfl⟩
  · exact absurd ht (noFault_effect hs f)

theorem noFault_of_running {s : State} (h : s.mode = .running) : noFault s := fun _ hf => nomatch h.symm.trans hf

theorem noFault_of_awaitingKey {s : State} {r : Reg} (h : s.mode = .awaitingKey r) : noFault s :=
  fun _ hf => nomatch h.symm.trans hf

/-- Settles O43: an instruction that ends in FAULTED raised the fault, which writes MODE alone. -/
theorem faultsArePrecise : Obligations.FaultsArePrecise := by
  intro i s t f hrun h ht
  have hs := noFault_of_running hrun
  exact ⟨exec_faulted hs h ht, exec_faulted_record hs h ht⟩

/-- The word of the "Encoding" line of a rule whose sub-opcode is its low byte (30_encoding.md R91). -/
theorem packXNN_eq_wX (c : Nib) (x : Reg) (nn : Byte) :
    packXNN c x nn = wX (c.setWidth 16 <<< 12 ||| nn.setWidth 16) x := by
  simp only [packXNN, wX]
  ac_rfl

/-- Settles O38: of the ways MODE can change only LD Vx, K suspends, and it suspends into its own register. -/
theorem onlyTheKeyWaitSuspends : Obligations.OnlyTheKeyWaitSuspends := by
  refine ⟨fun x => ⟨?_, fun _ => rfl⟩, fun i s t r h ht hrun => ?_⟩
  · have hword : encodeWord (.ldVxK x) = wX 0xF00A x := packXNN_eq_wX 0xF x 0x0A
    exact hword ▸ decodeWordWith_encodeWord rfl
  · obtain hkept | ⟨x, rfl, hx⟩ | ⟨f, hf, -⟩ := exec_mode_cases h
    · exact nomatch hrun.symm.trans (hkept.symm.trans ht)
    · cases hx.symm.trans ht
      rfl
    · exact nomatch hf.symm.trans ht

/-! ### What an instruction cannot see -/

/-- `s` with other values in the fields no instruction reads, and in the draw count, which RND alone reads
(40_engine.md R144, 10_state.md R40). -/
def State.withHidden (s : State) (st : Byte) (sch : List Event) (rep : List SoftReport) (ses : Session) (d : Nat) :
    State :=
  { s with st := st, schedule := sch, reports := rep, session := ses, draws := d }

section HiddenInput

variable (i : Instr) (s : State) (st : Byte) (sch : List Event) (rep : List SoftReport) (ses : Session) (d : Nat)

/-- ST after `i` left `t`, when ST was `st` before: LD ST, Vx alone writes it (10_state.md R40). -/
def stAfter (t : State) : Byte := match i with
  | .ldStVx _ => t.st
  | _ => st

/-- The draw count after `i` left `t`, when it was `d` before: RND alone counts (log 2). -/
def drawsAfter (t : State) : Nat := match i with
  | .rnd _ _ => t.draws
  | _ => d

theorem skipIf_withHidden (c : Bool) :
    State.skipIf (s.withHidden st sch rep ses d) c = (s.skipIf c).withHidden st sch rep ses d := by
  cases c <;> rfl

theorem loadRegs_withHidden (a n : Nat) :
    State.loadRegs (s.withHidden st sch rep ses d) a n = (s.loadRegs a n).withHidden st sch rep ses d := by
  induction n with
  | zero => rfl
  | succ n ih => simp only [State.loadRegs, ih]; rfl

theorem raisedBy_withHidden : raisedBy i (s.withHidden st sch rep ses d) = raisedBy i s := by
  cases i <;> rfl

/-- Other values in the hidden fields change nothing else that an effect leaves. -/
theorem effect_withHidden (hd : (∃ x nn, i = .rnd x nn) → d = s.draws) :
    effect i (s.withHidden st sch rep ses d) =
      (effect i s).withHidden (stAfter i st (effect i s)) sch rep ses (drawsAfter i d (effect i s)) := by
  cases i
  case ret =>
    by_cases h : s.sp.val = 0
    · simp [effect, State.pop, State.withHidden, h, stAfter, drawsAfter]
    · simp [effect, State.pop, State.withHidden, h, State.jump, stAfter, drawsAfter]
  case call =>
    by_cases h : s.sp.val < 12
    · simp [effect, State.push, State.withHidden, h, State.jump, stAfter, drawsAfter]
    · simp [effect, State.push, State.withHidden, h, stAfter, drawsAfter]
  case seImm | sneImm | seReg | sneReg | skp | sknp => exact skipIf_withHidden ..
  case rnd x nn =>
    obtain rfl := hd ⟨x, nn, rfl⟩
    rfl
  case ldVxMem => exact loadRegs_withHidden ..
  all_goals rfl

/-- The instructions that write ST or the draw count raise nothing. -/
theorem hidden_after_of_raisedBy {p : FaultKind × Nat} (h : raisedBy i s = some p) (t : State) :
    stAfter i st t = st ∧ drawsAfter i d t = d := by
  cases i
  case ldStVx | rnd => exact nomatch h
  all_goals exact ⟨rfl, rfl⟩

end HiddenInput

/-- Settles O54, by comparing the run with the run under other hidden values: the same fault is raised, or the same
effect is left. -/
theorem instructionsReadNoHiddenInput : Obligations.InstructionsReadNoHiddenInput := by
  intro i s t st sch rep ses d hd h
  have hraisedBy : raisedBy i (s.withHidden st sch rep ses d) = raisedBy i s := raisedBy_withHidden ..
  suffices hexec : exec i (s.withHidden st sch rep ses d) =
      .next (t.withHidden (stAfter i st t) sch rep ses (drawsAfter i d t)) from hexec
  rw [exec_eq, hraisedBy]
  obtain ⟨kind, addr, hraised, rfl⟩ | ⟨hraised, rfl⟩ := exec_next_cases h
  · obtain ⟨hst, hdraws⟩ := hidden_after_of_raisedBy i s st d hraised (s.enterFault _)
    rw [hraised, hst, hdraws]
    rfl
  · rw [hraised]
    exact congrArg _ (effect_withHidden i s st sch rep ses d hd)

/-! ### Inputs -/

/-- Settles O36: an input of a session that is not shut down is admitted, and a reset is admitted in every session. -/
theorem scheduledInputIsTaken : Obligations.ScheduledInputIsTaken := by
  rintro s e rest hinput he (hsession | ⟨image, rfl⟩)
  · exact step_input hinput he hsession
  · exact step_admitted hinput he (admits_reset s image)

/-- A key event sets or clears its own bit of KEYS (40_engine.md R133). -/
theorem keysAfter_own_bit (ks : BitVec 16) (k : Nib) (dir : KeyDir) :
    (keysAfter ks k dir).getLsbD k.toNat = decide (dir = .down) := by
  cases dir with
  | down => simp [keysAfter_down]
  | up => simp [keysAfter_up]

/-- A key event leaves the other bits of KEYS alone (40_engine.md R133). -/
theorem keysAfter_other_bit (ks : BitVec 16) (k : Nib) (dir : KeyDir) {j : Nat} (hj : j ≠ k.toNat) :
    (keysAfter ks k dir).getLsbD j = ks.getLsbD j := by
  cases dir with
  | down => simp [keysAfter_down, hj]
  | up => simp [keysAfter_up, hj]

/-- In RUNNING a key event writes KEYS alone (40_engine.md R133). -/
theorem takeKey_of_running {s : State} (h : s.mode = .running) (k : Nib) (dir : KeyDir) :
    s.takeKey k dir = { s with keys := keysAfter s.keys k dir } := by
  simp [State.takeKey, h]

/-- A key-up event writes KEYS alone, in every MODE (40_engine.md R133, R135). -/
theorem takeKey_up (s : State) (k : Nib) : s.takeKey k .up = { s with keys := keysAfter s.keys k .up } := by
  unfold State.takeKey
  split
  · contradiction
  · rfl

/-- A key-down event ends the wait (40_engine.md R134). -/
theorem takeKey_down_of_awaitingKey {s : State} {r : Reg} (h : s.mode = .awaitingKey r) (k : Nib) :
    s.takeKey k .down =
      { s.writeV r (k.setWidth 8) with keys := keysAfter s.keys k .down, mode := .running } := by
  simp [State.takeKey, h]

theorem takeInput_key {s : State} (h : s.takesInputs = true) (k : Nib) (dir : KeyDir) :
    State.takeInput s (.key k dir) = s.takeKey k dir := if_pos h

theorem takeInput_tick {s : State} (h : s.takesInputs = true) : State.takeInput s .tick = s.takeTick := if_pos h

/-- A scheduled key event of an open session that no fault has stopped is taken (40_engine.md R120). -/
theorem step_key {s : State} {k : Nib} {dir : KeyDir} {rest : List Event} (hinput : InputTurn s (.key k dir) rest)
    (hlive : s.session = .live) (hno : noFault s) :
    step s = .next (State.takeKey { s with schedule := rest } k dir) :=
  have htakes : State.takesInputs { s with schedule := rest } = true := takesInputs_of_live hlive hno
  (step_input hinput (by simp) (by simp [hlive])).trans (congrArg _ (takeInput_key htakes k dir))

/-- A scheduled tick of an open session that no fault has stopped is taken (40_engine.md R120). -/
theorem step_tick {s : State} {rest : List Event} (hinput : InputTurn s .tick rest)
    (hlive : s.session = .live) (hno : noFault s) :
    step s = .next (State.takeTick { s with schedule := rest }) :=
  have htakes : State.takesInputs { s with schedule := rest } = true := takesInputs_of_live hlive hno
  (step_input hinput (by simp) (by simp [hlive])).trans (congrArg _ (takeInput_tick htakes))

/-- Settles O39: the event is taken and writes its own bit of KEYS. -/
theorem keyEventInRunningChangesOneKeyBit : Obligations.KeyEventInRunningChangesOneKeyBit := by
  intro s k dir rest hinput hlive hrun
  have htaken := takeKey_of_running (s := { s with schedule := rest }) hrun k dir
  exact ⟨_, (step_key hinput hlive (noFault_of_running hrun)).trans (congrArg _ htaken), rfl,
    keysAfter_own_bit .., fun j hj => keysAfter_other_bit _ _ _ hj⟩

/-- While the core waits for a key its turn is the named stop (40_engine.md R135; log 7). -/
theorem coreTurn_awaitingKey {s : State} {r : Reg} (hlive : s.session = .live) (hwait : s.mode = .awaitingKey r) :
    coreTurn s = .fault (.awaitingKey r) := by
  simp [coreTurn, hlive, hwait]

/-- Settles O40, by the rule of each kind of step while the core waits. -/
theorem onlyAKeyDownEndsTheWait : Obligations.OnlyAKeyDownEndsTheWait := by
  intro s r rest hlive hwait
  have hno := noFault_of_awaitingKey hwait
  refine ⟨?_, fun hinput => ⟨_, step_tick hinput hlive hno, rfl, countDown_toNat _, countDown_toNat _⟩,
    fun k => ⟨fun hinput => ?_, fun hinput => ?_⟩⟩
  · rintro (hnone | hinstruction)
    · exact (step_unscheduled hnone).trans (coreTurn_awaitingKey hlive hwait)
    · exact (step_instruction hinstruction).trans (coreTurn_awaitingKey hlive hwait)
  · have htaken := takeKey_up { s with schedule := rest } k
    exact ⟨_, (step_key hinput hlive hno).trans (congrArg _ htaken), rfl,
      keysAfter_own_bit .., fun j hj => keysAfter_other_bit _ _ _ hj⟩
  · have htaken := takeKey_down_of_awaitingKey (s := { s with schedule := rest }) hwait k
    have hread (q : Reg) : (s.writeV r (k.setWidth 8)).readV q = if q = r then k.setWidth 8 else s.readV q :=
      readV_writeV ..
    have hkey : (k.setWidth 8 : Byte).toNat = k.toNat := BitVec.toNat_setWidth_of_le (by decide)
    exact ⟨_, (step_key hinput hlive hno).trans (congrArg _ htaken), rfl,
      (congrArg _ ((hread r).trans (if_pos rfl))).trans hkey, fun q hq => (hread q).trans (if_neg hq),
      keysAfter_own_bit .., fun j hj => keysAfter_other_bit _ _ _ hj⟩

/-- A timer one tick later, by whether it was 0 (40_engine.md R136). -/
theorem countDown_toNat_ite (t : Byte) : (countDown t).toNat = if t.toNat > 0 then t.toNat - 1 else 0 := by
  rw [countDown_toNat]
  split <;> omega

/-- Settles O41: both timers count down, each from its own value. -/
theorem tickDecrementsEachNonzeroTimer : Obligations.TickDecrementsEachNonzeroTimer := by
  intro s hlive hmode
  have hno : noFault s := hmode.elim noFault_of_running fun ⟨_, hwait⟩ => noFault_of_awaitingKey hwait
  exact ⟨_, takeInput_tick (takesInputs_of_live hlive hno), rfl, countDown_toNat_ite _, countDown_toNat_ite _⟩

/-! ### Shutdown and reset -/

/-- A reset with a legal image leaves the launched state (70_reset_and_hazards.md R340). -/
theorem resetWith_of_legal {image : List Byte} (h : image.length ≤ 0xE00) (s : State) :
    s.resetWith image = { State.launch image with schedule := s.schedule, draws := s.draws } := if_pos h

/-- After a shutdown no output shows anything (40_engine.md R142). -/
theorem shown_of_ended {α : Type} {s : State} (h : s.session = .ended) (a : α) : s.shown a = none := by
  simp [State.shown, h]

/-- Until a shutdown an output shows its value (log 9). -/
theorem shown_of_not_ended {α : Type} {s : State} (h : s.session ≠ .ended) (a : α) : s.shown a = some a := by
  unfold State.shown
  split
  · contradiction
  · rfl

/-- Settles O49: a shutdown discards the state; after it a step is the named stop unless it is a reset. -/
theorem onlyAResetFollowsAShutdown : Obligations.OnlyAResetFollowsAShutdown := by
  refine ⟨fun s rest hinput hsession => step_input hinput (by simp) hsession, fun s hended => ?_⟩
  refine ⟨step_ended hended, fun image rest hinput hlegal => ⟨_, step_reset hinput, ?_⟩,
    shown_of_ended hended _, shown_of_ended hended _, shown_of_ended hended _, shown_of_ended hended _,
    shown_of_ended hended _⟩
  rw [resetWith_of_legal hlegal]
  exact ⟨rfl, rfl⟩

/-! ### The `fb` output -/

/-- The `fb` output is the rows of FB one after the other (40_engine.md R141). -/
theorem fbOut_of_not_ended {s : State} (h : s.session ≠ .ended) :
    State.fbOut s = some (s.fb.flatMap fun row => row.map flagByte).toList := by
  have hrows : (s.fb.flatMap fun row => row.map flagByte).toList =
      s.fb.toList.flatMap fun row => (row.map flagByte).toList := Array.toList_flatMap
  simp only [hrows, Vector.toList_map]
  exact shown_of_not_ended h _

/-- Settles O59: place y * 64 + x of the rows one after the other is place x of row y. -/
theorem framebufferExportShowsEachPixel : Obligations.FramebufferExportShowsEachPixel := by
  refine fun s h => ⟨_, fbOut_of_not_ended h, Vector.length_toList .., fun y x hy hx => ?_⟩
  have hplace : y * 64 + x < 32 * 64 := by omega
  have hrow : (y * 64 + x) / 64 = y := by omega
  have hcol : (y * 64 + x) % 64 = x := by omega
  rw [Vector.getElem?_toList, Vector.getElem?_eq_getElem hplace, Vector.getElem_flatMap hplace, Vector.getElem_map]
  simp only [hrow, hcol, FrameBuffer.pixel, hy, hx, and_self, dite_true, flagByte]

/-! ### The key wait -/

/-- The core of an open session waits for a key into V[r], with PC at `pc`. -/
structure WaitsAt (r : Reg) (pc : Word) (s : State) : Prop where
  live : s.session = .live
  waiting : s.mode = .awaitingKey r
  pc_eq : s.pc = pc

/-- An FX0A suspension leaves a waiting core (40_engine.md R126). -/
theorem waitsAt_of_suspendsAt {platform : Nat → Event} {run : Nat → State} {n : Nat} {r : Reg}
    (hrun : IsRun platform run) (h : suspendsAt platform run n r) :
    WaitsAt r (run (n + 1)).pc (run (n + 1)) := by
  obtain ⟨hplatform, hwait⟩ := h
  have hstep := hrun n
  rw [hplatform, step_instruction rfl] at hstep
  obtain ⟨hlive, -, hturn⟩ := coreTurn_next hstep
  obtain ⟨t, ht, -, hsession⟩ := exists_instructionStep_next { run n with schedule := [] }
  obtain rfl : run (n + 1) = t := Host.Outcome.next.inj (hturn.symm.trans ht)
  exact ⟨hsession.trans hlive, hwait, rfl⟩

section KeyWait

variable {r : Reg} {pc : Word} {s t : State}

/-- No step but a key-down event, a reset and a shutdown ends the wait (40_engine.md R135). -/
theorem WaitsAt.of_step {e : Event} (h : WaitsAt r pc s) (hstep : step { s with schedule := [e] } = .next t)
    (hlegal : e ≠ .shutdown ∧ ∀ image, e ≠ .reset image) (hdown : ∀ j, e ≠ .key j .down) :
    WaitsAt r pc t := by
  obtain ⟨hlive, hwait, hpc⟩ := h
  obtain ⟨hstop, htick, hkey⟩ := onlyAKeyDownEndsTheWait { s with schedule := [e] } r [] hlive hwait
  cases e with
  | instruction => exact nomatch (hstop (.inr rfl)).symm.trans hstep
  | tick =>
    obtain ⟨u, hu, heq, -⟩ := htick rfl
    obtain rfl : t = u := Host.Outcome.next.inj (hstep.symm.trans hu)
    exact heq ▸ ⟨hlive, hwait, hpc⟩
  | key k dir =>
    cases dir with
    | down => exact absurd rfl (hdown k)
    | up =>
      obtain ⟨u, hu, heq, -⟩ := (hkey k).1 rfl
      obtain rfl : t = u := Host.Outcome.next.inj (hstep.symm.trans hu)
      exact heq ▸ ⟨hlive, hwait, hpc⟩
  | reset image => exact absurd rfl (hlegal.2 image)
  | shutdown => exact absurd rfl hlegal.1

/-- A key-down event ends the wait with the key in V[r] and PC kept (40_engine.md R134). -/
theorem WaitsAt.ends_of_key_down {j : Nib} (h : WaitsAt r pc s)
    (hstep : step { s with schedule := [.key j .down] } = .next t) :
    t.mode = .running ∧ (t.readV r).toNat = j.toNat ∧ t.pc = pc := by
  obtain ⟨hlive, hwait, hpc⟩ := h
  obtain ⟨-, -, hkey⟩ := onlyAKeyDownEndsTheWait { s with schedule := [.key j .down] } r [] hlive hwait
  obtain ⟨u, hu, heq, hread, -⟩ := (hkey j).2 rfl
  obtain rfl : t = u := Host.Outcome.next.inj (hstep.symm.trans hu)
  exact ⟨heq ▸ rfl, hread, heq ▸ hpc⟩

end KeyWait

/-- A core that waits keeps waiting until the first key-down event of a run with no reset and no shutdown. -/
theorem waitsAt_of_no_key_down {platform : Nat → Event} {run : Nat → State} {r : Reg} {pc : Word} {n m : Nat}
    (hrun : IsRun platform run) (hlegal : ∀ l, platform l ≠ .shutdown ∧ ∀ image, platform l ≠ .reset image)
    (hstart : WaitsAt r pc (run n)) (hno : ∀ l, n ≤ l → l < m → ∀ j, platform l ≠ .key j .down) :
    ∀ l, n ≤ l → l ≤ m → WaitsAt r pc (run l) := by
  intro l hl
  induction l, hl using Nat.le_induction with
  | base => exact fun _ => hstart
  | succ l hl ih => exact fun hm => (ih (by omega)).of_step (hrun l) (hlegal l) (hno l hl hm)

/-- Settles O58: the host's key-down event gives a first one after the suspension; the core waits up to it, and it ends
the wait. -/
theorem keyWaitEndsUnderTheKeyDuty : Obligations.KeyWaitEndsUnderTheKeyDuty := by
  classical
  intro platform run n r k hrun hlegal hsuspends hkeys
  have hdown : ∃ m, n < m ∧ ∃ j, platform m = .key j .down := by
    obtain ⟨m, hm, hk⟩ := hkeys n r rfl hsuspends
    exact ⟨m, hm, k, hk⟩
  obtain ⟨hlater, j, hj⟩ := Nat.find_spec hdown
  have hfirst : ∀ l, n + 1 ≤ l → l < Nat.find hdown → ∀ j, platform l ≠ .key j .down :=
    fun l hl hm j hj => Nat.find_min hdown hm ⟨hl, j, hj⟩
  have hwaits := waitsAt_of_no_key_down hrun hlegal (waitsAt_of_suspendsAt hrun hsuspends) hfirst
  obtain ⟨hrunning, hread, hpc⟩ := (hwaits _ hlater le_rfl).ends_of_key_down (hj ▸ hrun (Nat.find hdown))
  exact ⟨Nat.find hdown, j, hlater, fun l hl hm => (hwaits l hl hm).waiting, hj, hrunning, hread, hpc⟩

end Sys2Proof.Machine
end

section
/-! SUPPORT. Proofs about control flow (41_control_flow.md): the jumps (R161, R163), the call stack (R160, R162, R164)
and the skips on an immediate and on two registers (R170 to R174). -/

namespace Sys2Proof.Machine

open Sys2Proof.Claims

/-! ### Words -/

/-- The word of an "Encoding" line decodes to the instruction whose encoding it is, where no bit of the word is checked
under STRICT_5_9 (30_encoding.md R97). -/
theorem decodeWord_of_encodeWord {w : Word} {i : Instr} (h : encodeWord i = w)
    (hwf : i.wfWith false = true) : decodeWord w = .ok i :=
  h ▸ decodeWordWith_encodeWord hwf

/-- An ill-formed instruction encodes to an unsupported word: a strict decoder looks at the low nibble of 5XYN and 9XYN
(30_encoding.md R97). -/
theorem decodeWordWith_encodeWord_of_not_wf {strict : Bool} {i : Instr} (h : i.wfWith strict = false) :
    decodeWordWith strict (encodeWord i) = .error (.unsupported (encodeWord i)) := by
  cases i
  case seReg | sneReg =>
    simpa [encodeWord, decodeWordWith, decodeReg59_eq_error_iff, Instr.wfWith] using h
  all_goals exact nomatch h

/-! ### Jumps -/

/-- V0 is added without a wrap: 0xFFF + 0xFF is below 2^16 (41_control_flow.md R163). -/
theorem address_add_byte_toNat (nnn : Addr12) (b : Byte) :
    (address nnn + b.setWidth 16).toNat = nnn.toNat + b.toNat := by
  rw [BitVec.toNat_add, address_toNat, BitVec.toNat_setWidth]
  omega

/-- Settles O13: PC receives the zero-extended address, or its sum with V0. -/
theorem jumpsLoadThePc : Obligations.JumpsLoadThePc := by
  refine ⟨fun _ => decodeWord_of_encodeWord rfl rfl, fun _ => decodeWord_of_encodeWord rfl rfl, fun nnn s => ⟨?_, ?_⟩⟩
  · exact ⟨address nnn, address_toNat nnn, rfl⟩
  · exact ⟨address nnn + (s.readV 0).setWidth 16, address_add_byte_toNat nnn _, rfl⟩

/-! ### Calls and returns -/

/-- An instruction that raises nothing leaves its effect. -/
theorem exec_of_raisedBy_none {i : Instr} {s : State} (h : raisedBy i s = none) : exec i s = .next (effect i s) := by
  rw [exec_eq, h]

/-- CALL at capacity (41_control_flow.md R162). -/
theorem raises_call_of_full (nnn : Addr12) {s : State} (h : s.sp.val = 12) :
    Raises (.call nnn) s .stackOverflow 0 := raises_of_raisedBy (if_pos h)

/-- RET on the empty stack (41_control_flow.md R160). -/
theorem raises_ret_of_empty {s : State} (h : s.sp.val = 0) : Raises .ret s .stackUnderflow 0 :=
  raises_of_raisedBy (if_pos h)

/-- CALL below capacity: the return address at STACK[SP], SP one further, PC at the target (41_control_flow.md R162). -/
theorem exec_call_of_lt (nnn : Addr12) {s : State} (h : s.sp.val < 12) :
    exec (.call nnn) s = .next { s with
      pc := address nnn
      sp := ⟨s.sp.val + 1, by omega⟩
      stack := s.stack.set s.sp.val s.pc h } := by
  have hraised : raisedBy (.call nnn) s = none := if_neg h.ne
  rw [exec_of_raisedBy_none hraised]
  simp only [effect, push_of_lt s s.pc h, State.jump]

/-- RET from a nonempty stack: SP one less, PC at the entry it uncovers (41_control_flow.md R160). -/
theorem exec_ret_of_pos {s : State} (h : 0 < s.sp.val) :
    exec .ret s = .next { s with pc := s.stack[s.sp.val - 1], sp := ⟨s.sp.val - 1, by omega⟩ } := by
  have hraised : raisedBy .ret s = none := if_neg h.ne'
  rw [exec_of_raisedBy_none hraised]
  simp only [effect, pop_of_pos s h.ne', State.jump]

/-- Settles O14: below capacity only the entry at SP is set; at capacity nothing is pushed. -/
theorem callPushesTheReturnAddress : Obligations.CallPushesTheReturnAddress := by
  refine ⟨fun _ => decodeWord_of_encodeWord rfl rfl, fun nnn s => ⟨fun h => ?_, raises_call_of_full nnn⟩⟩
  exact ⟨_, exec_call_of_lt nnn h, rfl, address_toNat nnn, rfl, Vector.getElem?_set_self h,
    fun j hj => Vector.getElem?_set_ne h hj.symm⟩

/-- Settles O15: a nonempty stack holds the entry below SP; from the empty one nothing is popped. -/
theorem retPopsTheReturnAddress : Obligations.RetPopsTheReturnAddress := by
  refine ⟨decodeWord_of_encodeWord rfl rfl, fun s => ⟨fun h => ?_, raises_ret_of_empty⟩⟩
  exact ⟨_, exec_ret_of_pos h, rfl, rfl, Vector.getElem?_eq_getElem _⟩

/-- Settles O16: the entry that RET uncovers lies below the SP that CALL left, so it is still the one CALL pushed. -/
theorem callThenRetReturnsAfterTheCall : Obligations.CallThenRetReturnsAfterTheCall := by
  refine ⟨fun s a nnn hpc hlt => ?_, fun s nnn => raises_call_of_full nnn, fun s => raises_ret_of_empty⟩
  obtain ⟨t, hcall, -, -, htsp, hpushed, -⟩ := (callPushesTheReturnAddress.2 nnn s).1 hlt
  refine ⟨t, hcall, fun u husp hkept => ?_⟩
  have hdepth : u.sp.val = s.sp.val + 1 := husp ▸ htsp
  obtain ⟨w, hret, -, hwsp, hpopped⟩ := (retPopsTheReturnAddress.2 u).1 (by omega)
  rw [hdepth, Nat.add_sub_cancel] at hwsp hpopped
  rw [hkept _ (by omega), hpushed] at hpopped
  exact ⟨w, hret, (Option.some.inj hpopped).symm.trans hpc, Fin.ext hwsp⟩

/-! ### Skips -/

/-- An instruction that skips under a condition adds 2 to PC exactly when it holds (41_control_flow.md R174). -/
theorem goesTo_of_skipIf {i : Instr} {s : State} {cond : Bool} {p : Prop} [Decidable p]
    (hexec : exec i s = .next (s.skipIf cond)) (hcond : cond = true ↔ p) :
    GoesTo i s (if p then s.pc + 2 else s.pc) := by
  simp only [GoesTo, hexec, State.skipIf, hcond]
  split
  · rfl
  · rfl

/-- Settles O17: each instruction is a skip on its own comparison. -/
theorem immediateSkipsAddTwo : Obligations.ImmediateSkipsAddTwo := by
  refine fun x nn => ⟨decodeWord_of_encodeWord rfl rfl, decodeWord_of_encodeWord rfl rfl, fun s => ⟨?_, ?_⟩⟩
  · exact goesTo_of_skipIf rfl beq_iff_eq
  · exact goesTo_of_skipIf rfl bne_iff_ne

/-- Settles O18: each instruction is a skip on its own comparison, and only a strict decoder looks at the low nibble. -/
theorem registerSkipsAddTwo : Obligations.RegisterSkipsAddTwo := by
  refine fun x y n => ⟨decodeWord_of_encodeWord rfl rfl, decodeWord_of_encodeWord rfl rfl, fun hn => ?_,
    fun s => ⟨?_, ?_⟩⟩
  · have hlow : (n == 0) = false := beq_eq_false_iff_ne.2 hn
    exact ⟨decodeWordWith_encodeWord_of_not_wf (i := .seReg x y n) hlow,
      decodeWordWith_encodeWord_of_not_wf (i := .sneReg x y n) hlow⟩
  · exact goesTo_of_skipIf rfl beq_iff_eq
  · exact goesTo_of_skipIf rfl bne_iff_ne

end Sys2Proof.Machine
end

section
/-! SUPPORT. Proofs about the ALU (42_alu.md): writes of one register (R190 to R198), a result with its flag (R200 to
R204, R220, R221) and the random byte (R210, R228). -/

namespace Sys2Proof.Machine

open Sys2Proof.Claims

/-! ### Writes of one register -/

/-- An instruction that writes one register sets that register alone. -/
theorem setsOnly_of_writeV {i : Instr} {s : State} {x : Reg} {b : Byte} (hexec : exec i s = .next (s.writeV x b)) :
    SetsOnly i s x b :=
  ⟨_, hexec, rfl, (readV_writeV ..).trans (if_pos rfl), fun _ hq => (readV_writeV ..).trans (if_neg hq)⟩

/-- The sum is the exact one reduced modulo 256 (42_alu.md R191, R220). -/
theorem sumByte_toNat (a b : Byte) : (sumByte a b).toNat = (a.toNat + b.toNat) % 256 := BitVec.toNat_ofNat ..

/-- Settles O20: each instruction is a write of V[x], and the sum is reduced modulo 256. -/
theorem loadAndAddImmediate : Obligations.LoadAndAddImmediate := by
  refine fun x nn => ⟨decodeWord_of_encodeWord rfl rfl, decodeWord_of_encodeWord rfl rfl, fun s => ⟨?_, ?_⟩⟩
  · exact setsOnly_of_writeV rfl
  · exact ⟨sumByte (s.readV x) nn, sumByte_toNat .., setsOnly_of_writeV rfl⟩

/-- Settles O21: each instruction is a write of V[x], so VF changes only as the destination. -/
theorem copyAndLogicKeepVf : Obligations.CopyAndLogicKeepVf := fun _ _ =>
  ⟨decodeWord_of_encodeWord rfl rfl, decodeWord_of_encodeWord rfl rfl, decodeWord_of_encodeWord rfl rfl,
    decodeWord_of_encodeWord rfl rfl, fun _ =>
      ⟨setsOnly_of_writeV rfl, setsOnly_of_writeV rfl, setsOnly_of_writeV rfl, setsOnly_of_writeV rfl⟩⟩

/-! ### A result with its flag -/

/-- The flag is written last, so it is what VF holds when x = 15 (42_alu.md R221). -/
theorem setsWithFlag_of_writeResultAndFlag {r : Result} {s : State} {x : Reg} {b f : Byte}
    (hr : r = .next (s.writeResultAndFlag x b f)) : SetsWithFlag r s x b f := by
  refine ⟨_, hr, rfl, ?_, fun hx => ?_, fun q hqx hq => ?_⟩
  · rw [readV_writeResultAndFlag, if_pos rfl]
  · rw [readV_writeResultAndFlag, if_neg hx, if_pos rfl]
  · rw [readV_writeResultAndFlag, if_neg hq, if_neg hqx]

/-- The flag of a comparison, as the statements write it (42_alu.md R221). -/
theorem flagByte_decide (p : Prop) [Decidable p] : flagByte (decide p) = if p then 1 else 0 := by
  simp only [flagByte, decide_eq_true_eq]

/-- The difference is the exact one reduced modulo 256 (42_alu.md R220). -/
theorem diffByte_toNat (a b : Byte) : ((diffByte a b).toNat : Int) = (a.toNat - b.toNat : Int) % 256 := by
  rw [diffByte, BitVec.toNat_ofInt]
  omega

/-- Settles O22: each answer writes the result and then the flag, carry or no borrow. -/
theorem addAndSubtractSetTheFlag : Obligations.AddAndSubtractSetTheFlag := by
  refine fun x y => ⟨decodeWord_of_encodeWord rfl rfl, decodeWord_of_encodeWord rfl rfl,
    decodeWord_of_encodeWord rfl rfl, fun s => ⟨_, _, _, sumByte_toNat .., diffByte_toNat .., diffByte_toNat ..,
      ?_, ?_, ?_⟩⟩
  all_goals
    rw [← flagByte_decide]
    exact setsWithFlag_of_writeResultAndFlag rfl

/-! ### Shifts -/

/-- SHIFT_SOURCE picks the register that is shifted (42_alu.md R202). -/
theorem shiftOperandWith_eq (source : ShiftSource) (s : State) (x y : Reg) :
    s.shiftOperandWith source x y = s.readV (if source = .vx then x else y) := by
  cases source
  · rfl
  · rfl

theorem shiftRightByte_toNat (b : Byte) : (shiftRightByte b).toNat = b.toNat / 2 := by
  rw [shiftRightByte, BitVec.toNat_ushiftRight, Nat.shiftRight_eq_div_pow, pow_one]

theorem shiftLeftByte_toNat (b : Byte) : (shiftLeftByte b).toNat = b.toNat * 2 % 256 := by
  rw [shiftLeftByte, BitVec.toNat_shiftLeft, Nat.shiftLeft_eq, pow_one]

/-- A flag taken from bit k of a byte is that bit as a number. -/
theorem flagByte_getLsbD (b : Byte) (k : Nat) : flagByte (b.getLsbD k) = BitVec.ofNat 8 (b.toNat / 2 ^ k % 2) := by
  rw [← BitVec.testBit_toNat, Nat.testBit_eq_decide_div_mod_eq, flagByte_decide]
  rcases Nat.mod_two_eq_zero_or_one (b.toNat / 2 ^ k) with h | h
  · rw [h]; rfl
  · rw [h]; rfl

theorem lowBitFlag_eq (b : Byte) : lowBitFlag b = BitVec.ofNat 8 (b.toNat % 2) := by
  rw [lowBitFlag, flagByte_getLsbD, pow_zero, Nat.div_one]

/-- Bit 7 is all that is left of a byte above its low 7 bits. -/
theorem highBitFlag_eq (b : Byte) : highBitFlag b = BitVec.ofNat 8 (b.toNat / 128) := by
  have htop : b.toNat / 128 < 2 := by omega
  rw [highBitFlag, flagByte_getLsbD, show 2 ^ 7 = 128 from rfl, Nat.mod_eq_of_lt htop]

/-- Settles O23: each answer writes the shifted source and then the bit shifted out; this hardware shifts V[x]. -/
theorem shiftsMoveOneBitIntoVf : Obligations.ShiftsMoveOneBitIntoVf := by
  refine fun x y => ⟨decodeWord_of_encodeWord rfl rfl, decodeWord_of_encodeWord rfl rfl, fun s => ⟨rfl, rfl⟩,
    fun source s => ⟨_, _, _, shiftOperandWith_eq source s x y, shiftRightByte_toNat _, shiftLeftByte_toNat _,
      ?_, ?_⟩⟩
  · rw [← lowBitFlag_eq]
    exact setsWithFlag_of_writeResultAndFlag rfl
  · rw [← highBitFlag_eq]
    exact setsWithFlag_of_writeResultAndFlag rfl

/-! ### The random byte -/

/-- Settles O24: V[x] reads as the masked draw, so a bit that the mask clears is 0 whatever the draw; the other
registers read as before. -/
theorem randomByteIsMasked : Obligations.RandomByteIsMasked := by
  refine fun x nn => ⟨decodeWord_of_encodeWord rfl rfl, fun s => ?_⟩
  have hread : (maskDraw (Config.randByte s.draws) x nn s).readV x = Config.randByte s.draws &&& nn :=
    (readV_maskDraw ..).trans (if_pos rfl)
  refine ⟨_, rfl, rfl, hread, fun b hb => ?_, fun q hq => ?_⟩
  · rw [hread, BitVec.getLsbD_and, hb, Bool.and_false]
  · exact (readV_maskDraw ..).trans (if_neg hq)

end Sys2Proof.Machine
end

section
/-! SUPPORT. Proofs about the index register and memory (43_index_memory.md): loads of I (R230 to R232), the stores from
I on (R233, R234) and the load of registers (R235). -/

namespace Sys2Proof.Machine

open Sys2Proof.Claims

/-! ### The index register -/

/-- Settles O25: I receives the zero-extended address. -/
theorem loadIndexImmediate : Obligations.LoadIndexImmediate :=
  fun nnn => ⟨decodeWord_of_encodeWord rfl rfl, address nnn, address_toNat nnn, fun _ => rfl⟩

/-- The low nibble is the value modulo 16 (30_encoding.md R93). -/
theorem lowNibble_toNat (s : State) (x : Reg) : (s.lowNibble x).toNat = (s.readV x).toNat % 16 :=
  BitVec.extractLsb'_toNat ..

/-- The glyphs lie 5 bytes apart from address 0 on, so no address of one is reduced (43_index_memory.md R232). -/
theorem glyphAddress_toNat (s : State) (x : Reg) : (s.glyphAddress x).toNat = (s.readV x).toNat % 16 * 5 := by
  rw [State.glyphAddress, hw_fontBase, hw_glyphBytes, lowNibble_toNat, BitVec.toNat_ofNat]
  omega

/-- Settles O26: I receives the glyph address. -/
theorem glyphAddressIsFiveTimesTheDigit : Obligations.GlyphAddressIsFiveTimesTheDigit :=
  fun x => ⟨decodeWord_of_encodeWord (packXNN_eq_wX 0xF x 0x29) rfl, fun s =>
    ⟨s.glyphAddress x, glyphAddress_toNat s x, rfl⟩⟩

/-- A byte is added to a 16-bit word modulo 2^16 (43_index_memory.md R231). -/
theorem add_byte_toNat (w : Word) (b : Byte) : (w + b.setWidth 16).toNat = (w.toNat + b.toNat) % 65536 := by
  rw [BitVec.toNat_add, BitVec.toNat_setWidth]
  omega

/-- Settles O27: I receives the sum reduced modulo 2^16, and no check stands before it. -/
theorem addToIndexWraps : Obligations.AddToIndexWraps :=
  fun x => ⟨decodeWord_of_encodeWord (packXNN_eq_wX 0xF x 0x1E) rfl, fun s =>
    ⟨s.i + (s.readV x).setWidth 16, add_byte_toNat .., rfl⟩⟩

/-! ### Stores from I on -/

/-- A store inside the address space keeps the canonical form. -/
theorem storeBytes_wf {s : State} {a : Nat} {bs : List Byte} (hwf : Memory.wf s.mem)
    (hfits : a + bs.length ≤ 0x1000) :
    Memory.wf (s.storeBytes a bs).mem := writeBytes_wf bs s.mem a hwf hfits

/-- A stored byte is read at its place (20_memory.md R65, R71). -/
theorem readMem_storeBytes_add {s : State} {a k : Nat} {bs : List Byte} (hwf : Memory.wf s.mem)
    (hfits : a + bs.length ≤ 0x1000) (hk : k < bs.length) : (s.storeBytes a bs).readMem (a + k) = bs.getD k 0 := by
  have hin : a ≤ a + k ∧ a + k < a + bs.length := by omega
  rw [State.readMem, storeBytes_mem, read_writeBytes _ _ _ _ hwf hfits, if_pos hin, Nat.add_sub_cancel_left]

/-- An address outside the stored bytes reads as before (20_memory.md R71). -/
theorem readMem_storeBytes_of_outside {s : State} {a b : Nat} {bs : List Byte} (hwf : Memory.wf s.mem)
    (hfits : a + bs.length ≤ 0x1000) (hb : ¬(a ≤ b ∧ b < a + bs.length)) :
    (s.storeBytes a bs).readMem b = s.readMem b := by
  rw [State.readMem, storeBytes_mem, read_writeBytes _ _ _ _ hwf hfits, if_neg hb, State.readMem]

/-- The digits as numbers, hundreds first (43_index_memory.md R233). -/
theorem bcdDigits_toNat (b : Byte) : ((bcdDigits b).getD 0 0).toNat = b.toNat / 100 ∧
    ((bcdDigits b).getD 1 0).toNat = b.toNat / 10 % 10 ∧ ((bcdDigits b).getD 2 0).toNat = b.toNat % 10 := by
  refine ⟨Nat.mod_eq_of_lt ?_, Nat.mod_eq_of_lt ?_, Nat.mod_eq_of_lt ?_⟩
  all_goals omega

/-- Settles O28: the three bytes stored from I on are the digits. -/
theorem bcdStoresThreeDigits : Obligations.BcdStoresThreeDigits := by
  refine fun x => ⟨decodeWord_of_encodeWord (packXNN_eq_wX 0xF x 0x33) rfl, fun s hwf hrange => ?_⟩
  have hfits : s.atI + (bcdDigits (s.readV x)).length ≤ 0x1000 := Nat.succ_le_succ hrange
  have hread (k : Nat) (hk : k < 3) := readMem_storeBytes_add hwf hfits hk
  obtain ⟨hhundreds, htens, hones⟩ := bcdDigits_toNat (s.readV x)
  refine ⟨_, checkedAccess_of_le _ _ hrange, rfl, storeBytes_wf hwf hfits, ?_, ?_, ?_,
    fun a => readMem_storeBytes_of_outside hwf hfits⟩
  · exact (congrArg BitVec.toNat (hread 0 (by decide))).trans hhundreds
  · exact (congrArg BitVec.toNat (hread 1 (by decide))).trans htens
  · exact (congrArg BitVec.toNat (hread 2 (by decide))).trans hones

/-- Settles O29: the bytes stored from I on are the registers up to V[x]. -/
theorem storeWritesRegistersUpToX : Obligations.StoreWritesRegistersUpToX := by
  refine fun x => ⟨decodeWord_of_encodeWord (packXNN_eq_wX 0xF x 0x55) rfl, fun s hwf hrange => ?_⟩
  have hfits : s.atI + (s.regsUpTo x).length ≤ 0x1000 := by
    rw [length_regsUpTo]
    exact Nat.succ_le_succ hrange
  refine ⟨_, exec_ldMemVx hrange, rfl, storeBytes_wf hwf hfits, fun q => readMem_storeBytes_regsUpTo hwf hrange,
    fun a ha => readMem_storeBytes_of_outside hwf hfits ?_⟩
  rwa [length_regsUpTo]

/-! ### The load of registers -/

/-- Settles O30: the load writes V[0] to V[x] from the bytes from I on, and registers only. -/
theorem loadReadsRegistersUpToX : Obligations.LoadReadsRegistersUpToX := by
  refine fun x => ⟨decodeWord_of_encodeWord (packXNN_eq_wX 0xF x 0x65) rfl, fun s hrange => ?_⟩
  have hread := fun q => readV_loadRegs s s.atI (x.toNat + 1) q x.isLt
  refine ⟨_, checkedAccess_of_le _ _ hrange, loadRegs_eq .., fun q hq => ?_, fun q hq => ?_⟩
  · exact (hread q).trans (if_pos (Nat.lt_succ_of_le hq))
  · exact (hread q).trans (if_neg (Nat.not_lt_of_le hq))

end Sys2Proof.Machine
end

section
/-! SUPPORT. Proofs about the display (44_display.md): CLS (R260), DRW pixel by pixel with its collision (R261 to R265)
and the double draw (R266). -/

namespace Sys2Proof.Machine

open Sys2Proof.Claims

/-- Settles O33: the effect is the cleared framebuffer. -/
theorem clsClearsEveryPixel : Obligations.ClsClearsEveryPixel :=
  ⟨decodeWord_of_encodeWord rfl rfl, fun _ => ⟨_, rfl, rfl, pixel_clear⟩⟩

/-! ### The execute part of DRW -/

/-- A sprite in range raises nothing (44_display.md R261). -/
theorem raisedBy_drw_of_inRange (x y : Reg) {n : Nib} {s : State} (h : SpriteInRange s n) :
    raisedBy (.drw x y n) s = none := by
  by_cases hn : n = 0
  · exact if_pos hn
  · have hpos : n.toNat ≠ 0 := fun h0 => hn (BitVec.eq_of_toNat_eq h0)
    have hlast : s.atI + n.toNat - 1 ≤ 0xFFF := h.resolve_left hn
    have hoob : oob s.atI (n.toNat - 1) = none := (oob_eq_none_iff ..).2 (by omega)
    exact (if_neg hn).trans (congrArg (Option.map _) hoob)

/-- DRW with its sprite in range shows the canvas the sprite was drawn on (44_display.md R265). -/
theorem exec_drw_of_inRange (x y : Reg) {n : Nib} {s : State} (h : SpriteInRange s n) :
    exec (.drw x y n) s = .next (s.showCanvas (s.drawn x y n)) :=
  exec_of_raisedBy_none (raisedBy_drw_of_inRange x y h)

/-- VF after DRW is 1 exactly when there was a collision (44_display.md R264). -/
theorem readV_showCanvas_flag_eq_one_iff (s : State) (c : Canvas) :
    (s.showCanvas c).readV 15 = 1 ↔ c.collision = true := by
  rw [readV_showCanvas, if_pos rfl]
  cases c.collision
  · decide
  · decide

/-! ### The drawn sprite -/

/-- A pixel that is 1 is on the screen. -/
theorem on_screen_of_pixel {fb : FrameBuffer} {py px : Nat} (h : FrameBuffer.pixel fb py px = true) :
    py < 32 ∧ px < 64 := by
  by_contra hoff
  exact nomatch (dif_neg hoff).symm.trans h

/-- On the screen the bits that the compositor draws are the sprite's (44_display.md R262, R263). -/
theorem spriteRowsBit_eq_spriteBit (s : State) (x y : Reg) (n : Nib) {py px : Nat} (hrow : py < 32) (hcol : px < 64) :
    spriteRowsBit s.mem s.atI (s.spriteRow y) (s.spriteCol x) n.toNat py px = spriteBit s x y n py px := by
  simp only [spriteRowsBit, hrow, hcol, and_true]
  rfl

/-- The drawn sprite is XORed into the pixels on the screen (44_display.md R263, R265). -/
theorem pixel_drawn (s : State) (x y : Reg) (n : Nib) {py px : Nat} (hrow : py < 32) (hcol : px < 64) :
    FrameBuffer.pixel (s.drawn x y n).fb py px =
      Bool.xor (FrameBuffer.pixel s.fb py px) (spriteBit s x y n py px) := by
  rw [State.drawn, plotRows_fb, spriteRowsBit_eq_spriteBit s x y n hrow hcol]

/-- The drawn sprite collides when one of its bits meets a pixel that was 1 (44_display.md R264). -/
theorem drawn_collision_iff (s : State) (x y : Reg) (n : Nib) :
    (s.drawn x y n).collision = true ↔ ∃ py px, py < 32 ∧ px < 64 ∧ FrameBuffer.pixel s.fb py px = true ∧
      spriteBit s x y n py px = true := by
  rw [State.drawn, plotRows_collision]
  constructor
  · rintro (hstart | ⟨py, px, hbit, hpixel⟩)
    · exact nomatch hstart
    · obtain ⟨hrow, hcol⟩ := on_screen_of_pixel hpixel
      exact ⟨py, px, hrow, hcol, hpixel, spriteRowsBit_eq_spriteBit s x y n hrow hcol ▸ hbit⟩
  · rintro ⟨py, px, hrow, hcol, hpixel, hbit⟩
    exact .inr ⟨py, px, (spriteRowsBit_eq_spriteBit s x y n hrow hcol).trans hbit, hpixel⟩

/-- Settles O34: the canvas holds the XOR of each pixel, and VF its collision. -/
theorem drawXorsTheSpriteIntoThePixels : Obligations.DrawXorsTheSpriteIntoThePixels := by
  refine fun x y n => ⟨decodeWord_of_encodeWord rfl rfl, fun s hrange => ?_⟩
  refine ⟨_, exec_drw_of_inRange x y hrange, rfl, fun py px hrow hcol => pixel_drawn s x y n hrow hcol,
    ?_, ?_, fun q hq => ?_⟩
  · rw [readV_showCanvas, if_pos rfl]
    exact (flagByte_cases _).symm
  · exact (readV_showCanvas_flag_eq_one_iff ..).trans (drawn_collision_iff ..)
  · exact (readV_showCanvas ..).trans (if_neg hq)

/-! ### The double draw -/

/-- The sprite's bits depend on I, memory and the two position registers only (44_display.md R261, R262). -/
theorem spriteBit_congr {s u : State} {x y x' y' : Reg} (hi : u.i = s.i) (hmem : ∀ a, u.readMem a = s.readMem a)
    (hx : u.readV x' = s.readV x) (hy : u.readV y' = s.readV y) (n : Nib) (py px : Nat) :
    spriteBit u x' y' n py px = spriteBit s x y n py px := by
  simp only [spriteBit, State.atI, hi, hmem, hx, hy]

/-- A sprite whose bits on the screen are all 0 changes no pixel and does not collide (44_display.md R266). -/
theorem drawn_of_blank {s : State} {x y : Reg} {n : Nib}
    (hblank : ∀ py px, py < 32 → px < 64 → spriteBit s x y n py px = false) : s.drawn x y n = ⟨s.fb, false⟩ := by
  have hfb : (s.drawn x y n).fb = s.fb := fb_ext fun py px hrow hcol => by
    rw [pixel_drawn s x y n hrow hcol, hblank py px hrow hcol, Bool.xor_false]
  have hcollision : (s.drawn x y n).collision = false := by
    rw [← Bool.not_eq_true, drawn_collision_iff]
    rintro ⟨py, px, hrow, hcol, -, hbit⟩
    exact nomatch (hblank py px hrow hcol).symm.trans hbit
  exact congrArg₂ Canvas.mk hfb hcollision

/-- Settles O35: the second draw XORs the same bits again, so it meets a pixel that is 1 where the first one set it;
where every bit is 0 the canvas is the framebuffer itself. -/
theorem drawingTwiceRestoresTheScreen : Obligations.DrawingTwiceRestoresTheScreen := by
  refine ⟨fun s t u x y x' y' n hrange hexec hfb hi hmem hx hy => ?_, fun s x y n hrange hblank => ?_⟩
  · obtain rfl := Host.Outcome.next.inj ((exec_drw_of_inRange x y hrange).symm.trans hexec)
    have hrangeAgain : SpriteInRange u n := by rwa [SpriteInRange, State.atI, hi]
    have hbit := spriteBit_congr hi hmem hx hy n
    have hfirst {py px : Nat} (hrow : py < 32) (hcol : px < 64) : FrameBuffer.pixel u.fb py px =
        Bool.xor (FrameBuffer.pixel s.fb py px) (spriteBit s x y n py px) := hfb ▸ pixel_drawn s x y n hrow hcol
    refine ⟨_, exec_drw_of_inRange x' y' hrangeAgain, fb_ext fun py px hrow hcol => ?_, ?_⟩
    · calc FrameBuffer.pixel (u.drawn x' y' n).fb py px
        _ = Bool.xor (FrameBuffer.pixel u.fb py px) (spriteBit u x' y' n py px) := pixel_drawn u x' y' n hrow hcol
        _ = FrameBuffer.pixel s.fb py px := by
          rw [hbit, hfirst hrow hcol, Bool.xor_assoc, Bool.xor_self, Bool.xor_false]
    · rw [readV_showCanvas_flag_eq_one_iff, drawn_collision_iff, ← hfb]
      refine exists₂_congr fun py px => and_congr_right fun hrow => and_congr_right fun hcol => ?_
      rw [hbit, hfirst hrow hcol]
      cases FrameBuffer.pixel s.fb py px
      · simp
      · simp
  · refine ⟨_, exec_drw_of_inRange x y hrange, ?_⟩
    rw [drawn_of_blank hblank]
    exact ⟨rfl, readV_showCanvas ..⟩

end Sys2Proof.Machine
end

section
/-! SUPPORT. Proofs about the timers and keys (45_timers_keys.md): the key skips (R280, R281), the timer moves (R282,
R285, R286) and how the timers run down to 0 (R287). -/

namespace Sys2Proof.Machine

open Sys2Proof.Claims

/-! ### The key skips and the timer moves -/

/-- The key asked for is the one numbered by V[x] modulo 16 (30_encoding.md R94). -/
theorem keyDown_eq (s : State) (x : Reg) : s.keyDown x = s.keys.getLsbD ((s.readV x).toNat % 16) :=
  congrArg s.keys.getLsbD (lowNibble_toNat s x)

/-- Settles O19: each instruction is a skip on the KEYS bit of its key. -/
theorem keySkipsReadKeys : Obligations.KeySkipsReadKeys := by
  refine fun x => ⟨decodeWord_of_encodeWord (packXNN_eq_wX 0xE x 0x9E) rfl,
    decodeWord_of_encodeWord (packXNN_eq_wX 0xE x 0xA1) rfl, fun s => ⟨?_, ?_⟩⟩
  · exact goesTo_of_skipIf rfl (by rw [keyDown_eq])
  · exact goesTo_of_skipIf rfl (by rw [keyDown_eq, Bool.not_eq_true'])

/-- Settles O37: LD Vx, DT is a write of V[x], and the other two write their timer alone. -/
theorem timerTransfers : Obligations.TimerTransfers :=
  fun x => ⟨decodeWord_of_encodeWord (packXNN_eq_wX 0xF x 0x07) rfl,
    decodeWord_of_encodeWord (packXNN_eq_wX 0xF x 0x15) rfl,
    decodeWord_of_encodeWord (packXNN_eq_wX 0xF x 0x18) rfl,
    fun _ => ⟨setsOnly_of_writeV rfl, rfl, rfl⟩⟩

/-! ### Ticks in a row -/

/-- A run whose first step answers goes on from the state it leaves. -/
theorem run_succ_of_step {M : Host.Core} {s t : M.State} (h : M.step s = .next t) (n : Nat) :
    M.run (n + 1) s = M.run n t := by
  rw [Host.Core.run, h]

/-- Settles O42, by induction on the number of ticks: each one takes 1 from a timer that is not 0. -/
theorem timersReachZeroAfterTheirCountOfTicks : Obligations.TimersReachZeroAfterTheirCountOfTicks := by
  intro n
  induction n with
  | zero => exact fun s rest hsch _ _ => ⟨s, rfl, by rw [← show s.schedule = rest from hsch], rfl, rfl⟩
  | succ n ih =>
    intro s rest hsch hlive hmode
    have hno : noFault s := hmode.elim noFault_of_running fun ⟨_, hwait⟩ => noFault_of_awaitingKey hwait
    have hstep := step_tick (show InputTurn s .tick (List.replicate n .tick ++ rest) from hsch) hlive hno
    obtain ⟨t, hrun, hframe, hdt, hst⟩ :=
      ih (State.takeTick { s with schedule := List.replicate n .tick ++ rest }) rest rfl hlive hmode
    refine ⟨t, (run_succ_of_step (M := core) hstep n).trans hrun, hframe, ?_, ?_⟩
    · rw [hdt, takeTick_dt, countDown_toNat, Nat.sub_sub, Nat.add_comm 1]
    · rw [hst, takeTick_st, countDown_toNat, Nat.sub_sub, Nat.add_comm 1]

/-! ### The two timers alike -/

/-- The timers DT and ST (10_state.md R39, R40). -/
inductive Timer where
  | delay
  | sound

/-- What the timer holds. -/
def Timer.value : Timer → State → Byte
  | .delay, s => s.dt
  | .sound, s => s.st

/-- The instruction that loads the timer from V[x] (45_timers_keys.md R285, R286). -/
def Timer.load : Timer → Reg → Instr
  | .delay => .ldDtVx
  | .sound => .ldStVx

section TimerStep

variable {s t : State}

/-- Of the instructions only its load writes a timer. -/
theorem Timer.value_of_exec (c : Timer) {i : Instr} (h : exec i s = .next t) :
    c.value t = c.value s ∨ ∃ x, i = c.load x := by
  cases c with
  | delay => exact (exec_writesOwnFields h).dt
  | sound => exact (exec_writesOwnFields h).st

/-- An instruction step that fetches no load of the timer leaves it alone. -/
theorem Timer.value_of_instructionStep (c : Timer) (h : instructionStep s = .next t)
    (hload : ∀ x, decodeWord s.wordAtPc ≠ .ok (c.load x)) : c.value t = c.value s := by
  have hfetch : c.value s.fetch = c.value s := by cases c <;> rfl
  obtain ⟨f, -, rfl⟩ | ⟨-, i, hi, hexec⟩ | ⟨-, reports, rfl⟩ := instructionStep_next_cases h
  · cases c <;> rfl
  · obtain hkept | ⟨x, rfl⟩ := c.value_of_exec hexec
    · exact hkept.trans hfetch
    · exact absurd hi (hload x)
  · cases c <;> rfl

/-- A key event writes no timer (40_engine.md R133, R134). -/
theorem Timer.value_takeKey (c : Timer) (s : State) (k : Nib) (dir : KeyDir) :
    c.value (s.takeKey k dir) = c.value s := by
  unfold State.takeKey
  split <;> cases c <;> rfl

/-- In an open session without fault a step that is no reset, no shutdown and no fetch of the timer's load counts the
timer down when it is a tick, and leaves it alone otherwise (40_engine.md R136). -/
theorem Timer.value_of_step (c : Timer) {e : Event} (hstep : step { s with schedule := [e] } = .next t)
    (hlive : s.session = .live) (hno : noFault s) (hlegal : e ≠ .shutdown ∧ ∀ image, e ≠ .reset image)
    (hload : ∀ x, e = .instruction → decodeWord s.wordAtPc ≠ .ok (c.load x)) :
    c.value t = if e = .tick then countDown (c.value s) else c.value s := by
  have hsch : c.value { s with schedule := [] } = c.value s := by cases c <;> rfl
  cases e with
  | instruction =>
    obtain ⟨-, -, hturn⟩ := coreTurn_next ((step_instruction rfl).symm.trans hstep)
    exact (c.value_of_instructionStep hturn fun x => hload x rfl).trans hsch
  | tick =>
    have htaken := step_tick (s := { s with schedule := [.tick] }) rfl hlive hno
    obtain rfl : t = State.takeTick { s with schedule := [] } := Host.Outcome.next.inj (hstep.symm.trans htaken)
    cases c <;> rfl
  | key k dir =>
    have htaken := step_key (s := { s with schedule := [.key k dir] }) rfl hlive hno
    obtain rfl : t = State.takeKey { s with schedule := [] } k dir := Host.Outcome.next.inj (hstep.symm.trans htaken)
    exact (c.value_takeKey ..).trans hsch
  | reset image => exact absurd rfl (hlegal.2 image)
  | shutdown => exact absurd rfl hlegal.1

end TimerStep

/-! ### Runs under the tick duty -/

section TickingRun

variable {platform : Nat → Event} {run : Nat → State}

/-- The step of a run after which a session is open was no shutdown (40_engine.md R142). -/
theorem isRun_ne_shutdown {n : Nat} (hrun : IsRun platform run) (hlive : (run n).session = .live)
    (hafter : (run (n + 1)).session = .live) : platform n ≠ .shutdown := by
  intro h
  have hadmits : (run n).admits (platform n) = true := admits_of_not_ended _ (by simp [hlive])
  rw [isRun_input hrun n hadmits (by simp [h]), h] at hafter
  exact nomatch hafter

/-- Under the tick duty any number of ticks has come from some step on (40_engine.md R138, R145). -/
theorem hostTicks_unbounded (h : hostTicks platform) (p : Nat) :
    ∃ n, ∀ m, n ≤ m → p ≤ ticksBefore platform m := by
  obtain ⟨clock, hclock⟩ := h
  obtain ⟨k, hk⟩ := hclock.clock_unbounded p
  obtain ⟨n, hn⟩ := hclock.delivered k
  refine ⟨n, fun m hm => ?_⟩
  obtain ⟨d, rfl⟩ := Nat.exists_eq_add_of_le hm
  exact (hk.trans hn).trans (ticksBefore_mono platform n d)

/-- A byte that changes at the ticks alone has lost one for each of them, down to 0 (45_timers_keys.md R287). -/
theorem toNat_eq_sub_ticksBefore {v : Nat → Byte}
    (hv : ∀ n, v (n + 1) = if platform n = .tick then countDown (v n) else v n) (n : Nat) :
    (v n).toNat = (v 0).toNat - ticksBefore platform n := by
  induction n with
  | zero => rfl
  | succ n ih =>
    rw [hv, ticksBefore]
    split
    · rw [countDown_toNat, ih, Nat.sub_sub]
    · exact ih

/-- A timer that no instruction loads is 0 from some step on. -/
theorem Timer.runs_out (c : Timer) (hrun : IsRun platform run) (hticks : hostTicks platform)
    (hopen : ∀ n, (run n).session = .live ∧ noFault (run n)) (hreset : ∀ n image, platform n ≠ .reset image)
    (hload : ∀ n x, platform n = .instruction → decodeWord (run n).wordAtPc ≠ .ok (c.load x)) :
    ∃ n, ∀ m, n ≤ m → c.value (run m) = 0 := by
  have hvalue (n : Nat) : c.value (run (n + 1)) =
      if platform n = .tick then countDown (c.value (run n)) else c.value (run n) := by
    obtain ⟨hlive, hno⟩ := hopen n
    exact c.value_of_step (hrun n) hlive hno
      ⟨isRun_ne_shutdown hrun hlive (hopen (n + 1)).1, hreset n⟩ (hload n)
  obtain ⟨n, hn⟩ := hostTicks_unbounded hticks (c.value (run 0)).toNat
  refine ⟨n, fun m hm => BitVec.eq_of_toNat_eq ?_⟩
  exact (toNat_eq_sub_ticksBefore (v := fun n => c.value (run n)) hvalue m).trans (Nat.sub_eq_zero_of_le (hn m hm))

end TickingRun

/-- Settles O57: each timer counts the ticks, and the duty brings as many as it held at the start. -/
theorem timersRunOutUnderTheTickDuty : Obligations.TimersRunOutUnderTheTickDuty :=
  fun _ _ hrun hticks hopen hreset =>
    ⟨Timer.runs_out .delay hrun hticks hopen hreset, Timer.runs_out .sound hrun hticks hopen hreset⟩

end Sys2Proof.Machine
end

section
/-! SUPPORT. Proofs about faults (60_exceptions.md): which instructions raise one, with the record it leaves (R300,
R303), and the stopped core (R305). -/

namespace Sys2Proof.Machine

open Sys2Proof.Claims

/-! ### The faults of the execute part -/

section ExecuteFault

variable {i : Instr} {s t : State}

/-- The instructions that raise a fault, each with its cause (60_exceptions.md R300). -/
theorem exists_raisedBy_iff : (∃ p, raisedBy i s = some p) ↔
    (i = .ret ∧ s.sp.val = 0) ∨ ((∃ nnn, i = .call nnn) ∧ s.sp.val = 12) ∨
      ∃ bad, firstBadAddress i s = some bad := by
  constructor
  · rintro ⟨⟨_, addr⟩, hraised⟩
    obtain ⟨-, -, hret⟩ | ⟨-, -, hcall⟩ | ⟨-, hbad⟩ := raisedBy_cases hraised
    · exact .inl hret
    · exact .inr (.inl hcall)
    · exact .inr (.inr ⟨addr, hbad⟩)
  · rintro (⟨rfl, hsp⟩ | ⟨⟨nnn, rfl⟩, hsp⟩ | ⟨bad, hbad⟩)
    · exact ⟨_, if_pos hsp⟩
    · exact ⟨_, if_pos hsp⟩
    · exact ⟨_, raisedBy_of_firstBadAddress hbad⟩

/-- An instruction that ends in FAULTED raised the fault of the record (40_engine.md R132). -/
theorem raisedBy_of_exec_faulted {f : FaultRecord} (hs : noFault s) (h : exec i s = .next t)
    (ht : t.mode = .faulted f) : ∃ addr, raisedBy i s = some (f.kind, addr) ∧ f.addr = BitVec.ofNat 16 addr := by
  obtain ⟨kind, addr, hraised, rfl⟩ | ⟨-, rfl⟩ := exec_next_cases h
  · cases ht
    exact ⟨addr, hraised, rfl⟩
  · exact absurd ht (noFault_effect hs f)

/-- From a core without fault, an instruction ends in FAULTED exactly when it raises a fault. -/
theorem exec_faulted_iff_raisedBy (hs : noFault s) (h : exec i s = .next t) :
    (∃ f, t.mode = .faulted f) ↔ ∃ p, raisedBy i s = some p := by
  constructor
  · rintro ⟨f, hf⟩
    obtain ⟨addr, hraised, -⟩ := raisedBy_of_exec_faulted hs h hf
    exact ⟨_, hraised⟩
  · rintro ⟨⟨kind, addr⟩, hraised⟩
    cases h.symm.trans (raises_of_raisedBy hraised)
    exact ⟨_, rfl⟩

/-- A first bad address is I or 0x1000, so the 16-bit address of a fault record holds it. -/
theorem firstBadAddress_lt {bad : Nat} (h : firstBadAddress i s = some bad) : bad < 0x10000 := by
  obtain ⟨-, rfl⟩ : _ ∧ max s.atI 0x1000 = bad := by simpa [firstBadAddress] using h
  exact max_lt s.i.isLt (by decide)

end ExecuteFault

/-- Settles O44: an instruction ends in FAULTED when it raises a fault, and the record holds the kind and the address of
that fault. -/
theorem onlyListedInstructionsFault : Obligations.OnlyListedInstructionsFault := by
  intro i s t hrun h
  have hs := noFault_of_running hrun
  refine ⟨(exec_faulted_iff_raisedBy hs h).trans exists_raisedBy_iff, fun f hf => ?_⟩
  obtain ⟨addr, hraised, haddr⟩ := raisedBy_of_exec_faulted hs h hf
  obtain ⟨hkind, rfl, hret, -⟩ | ⟨hkind, rfl, hcall, -⟩ | ⟨hkind, hbad⟩ := raisedBy_cases hraised
  · exact .inl ⟨hret, hkind, haddr⟩
  · exact .inr (.inl ⟨hcall, hkind, haddr⟩)
  · have hexact : f.addr.toNat = addr := by
      rw [haddr, BitVec.toNat_ofNat, Nat.mod_eq_of_lt (firstBadAddress_lt hbad)]
    exact .inr (.inr ⟨hkind, hexact ▸ hbad⟩)

/-! ### The stopped core -/

/-- In FAULTED the core's turn is the named stop (60_exceptions.md R305; log 6). -/
theorem coreTurn_faulted {s : State} {f : FaultRecord} (hlive : s.session = .live) (hfault : s.mode = .faulted f) :
    coreTurn s = .fault (.coreFaulted f) := by
  simp [coreTurn, hlive, hfault]

/-- In FAULTED no key event and no tick is taken, whatever the session (60_exceptions.md R305). -/
theorem takesInputs_of_faulted {s : State} {f : FaultRecord} (hfault : s.mode = .faulted f) :
    s.takesInputs = false := by
  cases hsession : s.session <;> simp [State.takesInputs, hsession, hfault]

/-- A key event or a tick that the core does not take changes nothing (log 8). -/
theorem takeInput_of_not_taken {s : State} {e : Event} (he : e = .tick ∨ ∃ k dir, e = .key k dir)
    (htakes : s.takesInputs = false) : State.takeInput s e = s := by
  obtain rfl | ⟨k, dir, rfl⟩ := he
  · exact if_neg (ne_true_of_eq_false htakes)
  · exact if_neg (ne_true_of_eq_false htakes)

/-- A scheduled key event or tick that the core does not take is used up, and nothing else happens (log 8). -/
theorem step_not_taken {s : State} {e : Event} {rest : List Event} (hinput : InputTurn s e rest)
    (he : e = .tick ∨ ∃ k dir, e = .key k dir) (hsession : s.session ≠ .ended) (htakes : s.takesInputs = false) :
    step s = .next { s with schedule := rest } := by
  have hne : e ≠ .instruction := by
    rintro rfl
    simp at he
  have hkept := takeInput_of_not_taken (s := { s with schedule := rest }) he htakes
  exact (step_input hinput hne hsession).trans (congrArg _ hkept)

/-- Settles O45: the core's turn is the named stop, and the inputs are not taken. -/
theorem faultedCoreIsFrozen : Obligations.FaultedCoreIsFrozen := by
  intro s f rest hlive hfault
  have hsession : s.session ≠ .ended := by simp [hlive]
  have htakes := takesInputs_of_faulted hfault
  refine ⟨?_, fun hinput => step_not_taken hinput (.inl rfl) hsession htakes,
    fun k dir hinput => step_not_taken hinput (.inr ⟨k, dir, rfl⟩) hsession htakes⟩
  rintro (hnone | hinstruction)
  · exact (step_unscheduled hnone).trans (coreTurn_faulted hlive hfault)
  · exact (step_instruction hinstruction).trans (coreTurn_faulted hlive hfault)

end Sys2Proof.Machine
end

section
/-! SUPPORT. Proofs about reset (70_reset_and_hazards.md): a legal image starts a session from the reset state (R340),
an oversize one opens none (R341), and what the steps do while no session is open. -/

namespace Sys2Proof.Machine

open Sys2Proof.Claims

/-! ### A legal image -/

/-- A scheduled reset with a legal image leaves the launched state, whatever the state before it (R340). -/
theorem step_reset_of_legal {s : State} {image : List Byte} {rest : List Event}
    (hinput : InputTurn s (.reset image) rest) (hlegal : image.length ≤ 0xE00) :
    step s = .next { State.launch image with schedule := rest, draws := s.draws } :=
  (step_reset hinput).trans (congrArg _ (resetWith_of_legal hlegal _))

/-- The launched memory is the image from 0x200 on, the font below 0x050 and 0 elsewhere (10_state.md R51, R52). -/
theorem readMem_launch {image : List Byte} (hlegal : image.length ≤ 0xE00) (a : Nat) :
    (State.launch image).readMem a =
      if 0x200 ≤ a ∧ a < 0x200 + image.length then image.getD (a - 0x200) 0
      else if a < 0x50 then hw.font.getD a 0 else 0 := by
  rw [read_launch image hlegal, resetByte_eq]

/-- Settles O47: the next state is the launched one, whose fields but memory are those of the reset state. -/
theorem resetStartsAFreshSession : Obligations.ResetStartsAFreshSession :=
  fun _ image _ hinput hlegal =>
    ⟨_, step_reset_of_legal hinput hlegal, rfl, rfl, rfl, reset_readV, rfl, rfl, rfl, rfl,
      launch_mem_wf image hlegal, readMem_launch hlegal⟩

/-! ### An oversize image -/

/-- A reset with an oversize image leaves no session open and the rest of the state as it was (R341). -/
theorem resetWith_of_oversize {image : List Byte} (hsize : 0xE00 < image.length) {s : State}
    (hsession : s.session ≠ .ended) : s.resetWith image = { s with session := .noSession } := by
  refine (if_neg (Nat.not_le_of_lt hsize)).trans ?_
  split
  · contradiction
  · rfl

/-- After a shutdown a reset with an oversize image changes nothing (R341; log 9). -/
theorem resetWith_of_oversize_of_ended {image : List Byte} (hsize : 0xE00 < image.length) {s : State}
    (hended : s.session = .ended) : s.resetWith image = s := by
  refine (if_neg (Nat.not_le_of_lt hsize)).trans ?_
  rw [hended]

/-! ### No session -/

/-- With no session open the core's turn is the named stop (R341). -/
theorem coreTurn_noSession {s : State} (hsession : s.session = .noSession) : coreTurn s = .fault .noSession := by
  simp [coreTurn, hsession]

/-- With no session open no key event and no tick is taken (R341; log 8). -/
theorem takesInputs_of_noSession {s : State} (hsession : s.session = .noSession) : s.takesInputs = false := by
  simp [State.takesInputs, hsession]

/-- Settles O48: an oversize image is refused, and with no session open only a reset with a legal image starts one. -/
theorem oversizeImageOpensNoSession : Obligations.OversizeImageOpensNoSession := by
  refine ⟨fun s image rest hinput hsession hsize => ?_, fun s image rest hinput hended hsize => ?_,
    fun s rest hsession => ?_⟩
  · exact (step_reset hinput).trans (congrArg _ (resetWith_of_oversize hsize hsession))
  · exact (step_reset hinput).trans (congrArg _ (resetWith_of_oversize_of_ended hsize hended))
  · have hopen : s.session ≠ .ended := by simp [hsession]
    have htakes := takesInputs_of_noSession hsession
    refine ⟨?_, fun hinput => step_not_taken hinput (.inl rfl) hopen htakes,
      fun k dir hinput => step_not_taken hinput (.inr ⟨k, dir, rfl⟩) hopen htakes,
      fun image hinput hlegal => ⟨_, step_reset_of_legal hinput hlegal, rfl, rfl⟩⟩
    rintro (hnone | hinstruction)
    · exact (step_unscheduled hnone).trans (coreTurn_noSession hsession)
    · exact (step_instruction hinstruction).trans (coreTurn_noSession hsession)

end Sys2Proof.Machine
end
